-- ==== Sys2Proof/Word.lean ====
section
/-! DEFINITION. The word types of z80mul-core (spec R5, R7), the enumeration of the eight
general registers (R20) and the pairing of two words into a 32-bit value (R7, `a:b`). -/

namespace Sys2Proof

/-- A 16-bit word: a general register, an immediate, one half of a product (R5, R7). -/
abbrev Word := BitVec 16

/-- One byte of the instruction stream (R5, "One byte is consumed per step"). -/
abbrev Byte := BitVec 8

/-- A 32-bit value: the product held across two registers (R5). -/
abbrev DWord := BitVec 32

/-- `hi:lo`, R7: "concatenation; a supplies the high bits". -/
def pair (hi lo : Word) : DWord := hi ++ lo

/-- The eight general registers, in the order of R20's "fixed enumeration". -/
inductive Reg where
  | ax
  | cx
  | dx
  | bx
  | sp
  | bp
  | si
  | di
deriving DecidableEq, Repr

end Sys2Proof
end

