-- ==== Sys2Proof/Config.lean ====
section
/-! DEFINITION. What the spec leaves to the implementation: the parameter `IMUL_SAME_REG`
(R6, decision D13) and the free values of its setting `draw`. `POS_WIDTH` (D19) is taken as
unbounded, which D19 allows; see notes/assumptions/2.md. -/

namespace Sys2Proof

/-- The parameter `IMUL_SAME_REG` (R6, R143, D13): what an IMUL leaves in a register that it
names as both halves of the product. -/
inductive ImulSameReg where
  /-- The default: the low write comes first, the high write second, so `hi` stays. -/
  | highWins
  /-- The register ends holding an unconstrained 16-bit value. -/
  | draw
deriving DecidableEq, Repr

/-- The parameters of one machine: fixed for the machine, never written by a step. -/
structure Config where
  imulSameReg : ImulSameReg
deriving DecidableEq, Repr

/-- R6 and D13: "default `high_wins`". -/
def Config.default : Config := { imulSameReg := .highWins }

/-- The free values of `IMUL_SAME_REG = draw`: nothing constrains the word the n-th draw gives
(R143 "an unconstrained 16-bit value"; notes/assumptions/1.md). -/
opaque Config.freeWord : Nat → Word

end Sys2Proof
end

