-- ==== Sys2Proof/Syntax.lean ====
section
/-! DEFINITION. The instruction set of z80mul-core (R3): one constructor per row of
spec/opcode_table.json. An `Instr` is also the descriptor that the decoder hands to the
executor (R36). -/

namespace Sys2Proof

/-- The three instructions of R3, with the operands of R95. -/
inductive Instr where
  /-- `XOR rd,rs` (R141). -/
  | xor (rd rs : Reg)
  /-- `MOV rd,imm16` (R142). -/
  | mov (rd : Reg) (imm : Word)
  /-- `IMUL rh:rl,rl,imm16` (R143): `rh` gets the high half; `rl` is the multiplier and gets the
  low half. -/
  | imul (rh rl : Reg) (imm : Word)
deriving DecidableEq, Repr

end Sys2Proof
end

