-- ==== Sys2Proof/Machine/State.lean ====
section
/-! DEFINITION. The state of z80mul-core (spec/10_state.md), as plain data: the register file, the
decoder state and pending-instruction record, the byte position, the session status, the error
record; beside them the events the environment has presented (R45), the machine's parameter
(R6, D13) and the counter behind its free values. Then the state after reset (R50), and the
reasons a step can stop. -/

namespace Sys2Proof.Machine

/-- The eight 16-bit general registers (R20). -/
structure RegFile where
  ax : Word
  cx : Word
  dx : Word
  bx : Word
  sp : Word
  bp : Word
  si : Word
  di : Word
deriving DecidableEq, Repr

/-- The decoder state `dstate` (R30). -/
inductive DecoderState where
  | operandByte
  | addressingByte
  | immediateByte
deriving DecidableEq, Repr

/-- The field `opcode_class` of the pending-instruction record (R31). -/
inductive OpcodeClass where
  | none
  | xor
  | mov
  | imul
deriving DecidableEq, Repr

/-- The pending-instruction record (R31). A one-bit flag is a Bool; an index is the register it
selects (R21), all eight being valid. -/
structure Pending where
  /-- `opcode_class`. -/
  opcodeClass : OpcodeClass
  /-- `operand_size_flag`: true is 1, 16-bit. -/
  operandSizeFlag : Bool
  /-- `direction_flag`: true is 1, dest = reg field. -/
  directionFlag : Bool
  /-- `dest_reg`. -/
  destReg : Reg
  /-- `src_reg`. -/
  srcReg : Reg
  /-- `shadow`, also called `immediate_accumulator`. -/
  shadow : Word
  /-- `expect`, 2 bits. -/
  expect : BitVec 2
  /-- `tertiary`, also called `has_extra_immediate_byte`. -/
  tertiary : Bool
deriving DecidableEq, Repr

/-- The session status (R41). -/
inductive Status where
  | running
  | done
  | error
deriving DecidableEq, Repr

/-- The error codes that have a name (R200); codes 5 to 7 are "never produced". -/
inductive ErrCode where
  | none
  | unsupportedOpcode
  | unsupportedAddressingMode
  | truncatedInstruction
  /-- Code 4: the external collaborator's, never the block's (R204). -/
  | malformedInput
deriving DecidableEq, Repr

/-- The error record (R42). -/
structure ErrorRecord where
  code : ErrCode
  pos : Nat
  byte : Byte
deriving DecidableEq, Repr

/-- The input events of R45. -/
inductive Event where
  /-- `Byte(b)`: the next byte of the instruction stream. -/
  | byte (b : Byte)
  /-- `End`: "the input byte stream is exhausted". -/
  | endOfStream
  /-- `Reset`: start a new session. -/
  | reset
deriving DecidableEq, Repr

/-- The whole state. -/
structure State where
  /-- `x[0]` to `x[7]` (R20). -/
  regs : RegFile
  /-- `dstate` (R30). -/
  dstate : DecoderState
  /-- The pending-instruction record (R31). -/
  pending : Pending
  /-- `pos`, the byte position counter (R40), unbounded as D19 allows. -/
  pos : Nat
  /-- `status` (R41). -/
  status : Status
  /-- `err_code`, `err_pos`, `err_byte` (R42). -/
  err : ErrorRecord
  /-- The events the environment presents, oldest first (R45, R46, R61). -/
  inputs : List Event
  /-- The machine's parameters (R6); no step writes them. -/
  config : Config
  /-- How many free values have been drawn (D13); the model's own field. -/
  draws : Nat
deriving DecidableEq, Repr

/-- Why a step stops with a fault. -/
inductive Fault where
  /-- Raised by the decoder's completion when `opcode_class` is NONE. R140: "A completed descriptor
  never has class NONE", so no reachable state raises it. Safe. -/
  | completedWithoutClass
deriving DecidableEq, Repr

/-- Why a step refuses. -/
inductive Refusal where
  /-- Raised by `exec` for an instruction without a meaning; no arm does. Safe. -/
  | notModelled (mnemonic : String)
deriving DecidableEq, Repr

/-- R50: every register holds 0x0000 after reset (R26, D10). -/
def RegFile.reset : RegFile :=
  { ax := 0#16, cx := 0#16, dx := 0#16, bx := 0#16, sp := 0#16, bp := 0#16, si := 0#16, di := 0#16 }

/-- R50 and R31: the pending-instruction record after reset. -/
def Pending.reset : Pending :=
  { opcodeClass := .none, operandSizeFlag := false, directionFlag := false, destReg := .ax,
    srcReg := .ax, shadow := 0#16, expect := 0#2, tertiary := false }

/-- R50 and R42: the error record after reset. -/
def ErrorRecord.reset : ErrorRecord := { code := .none, pos := 0, byte := 0x00#8 }

/-- The machine right after reset (R50), with no event presented yet and the parameter at its
default (D13). -/
def State.reset : State :=
  { regs := RegFile.reset, dstate := .operandByte, pending := Pending.reset, pos := 0,
    status := .running, err := ErrorRecord.reset, inputs := [], config := Config.default, draws := 0 }

end Sys2Proof.Machine
end

