-- ==== Sys2Proof/Machine/Ops.lean ====
section
/-! DEFINITION. The shared operations over the state: the register file (R20 to R25), the encodings
of the enumerated fields (R30, R31, R41, R200), the byte position (R111), taking an error (R205),
the reset event (R230), completion (R125), the end of the stream (R203, R210) and the output ports
(R47). The block has no memory (R60), so there is no memory operation, and no return from an error:
only reset leaves it (R207, R208). -/

namespace Sys2Proof.Machine

/-- One step's answer. -/
abbrev Result := Host.Outcome State Fault Refusal

/-- `f` applied to the next state, a stop left as it is. -/
def thenNext (o : Result) (f : State → State) : Result :=
  match o with
  | .next s => .next (f s)
  | .fault r => .fault r
  | .refused r => .refused r

/-! ### Registers -/

/-- `x[i]` (R7, R22): the whole 16 bits. -/
def RegFile.get (f : RegFile) : Reg → Word
  | .ax => f.ax
  | .cx => f.cx
  | .dx => f.dx
  | .bx => f.bx
  | .sp => f.sp
  | .bp => f.bp
  | .si => f.si
  | .di => f.di

/-- `x[i] <- v` (R7, R22): no register is hard-wired. -/
def RegFile.set (f : RegFile) (r : Reg) (v : Word) : RegFile :=
  match r with
  | .ax => { f with ax := v }
  | .cx => { f with cx := v }
  | .dx => { f with dx := v }
  | .bx => { f with bx := v }
  | .sp => { f with sp := v }
  | .bp => { f with bp := v }
  | .si => { f with si := v }
  | .di => { f with di := v }

/-- Read a general register. -/
def State.readReg (s : State) (r : Reg) : Word := s.regs.get r

/-- Write a general register. -/
def State.writeReg (s : State) (r : Reg) (v : Word) : State := { s with regs := s.regs.set r v }

/-- Write `shadow` (R31, R33). -/
def State.setShadow (s : State) (v : Word) : State :=
  { s with pending := { s.pending with shadow := v } }

/-- Count one free value as drawn (D13). -/
def State.countDraw (s : State) : State := { s with draws := s.draws + 1 }

/-! ### The encodings of the enumerated fields -/

/-- R30's encoding of `dstate`. -/
def DecoderState.code : DecoderState → BitVec 2
  | .operandByte => 0#2
  | .addressingByte => 1#2
  | .immediateByte => 2#2

/-- R31's encoding of `opcode_class`. -/
def OpcodeClass.code : OpcodeClass → BitVec 2
  | .none => 0#2
  | .xor => 1#2
  | .mov => 2#2
  | .imul => 3#2

/-- R41's encoding of `status`. -/
def Status.code : Status → BitVec 2
  | .running => 0#2
  | .done => 1#2
  | .error => 2#2

/-- R200's encoding of `err_code`. -/
def ErrCode.code : ErrCode → BitVec 3
  | .none => 0#3
  | .unsupportedOpcode => 1#3
  | .unsupportedAddressingMode => 2#3
  | .truncatedInstruction => 3#3
  | .malformedInput => 4#3

/-! ### The byte position, errors, completion, reset -/

/-- R111: "Every byte consumed while `status = Running` advances the position counter." -/
def State.advancePos (s : State) : State := { s with pos := s.pos + 1 }

/-- Taking an error, `raise E(pos = q, byte = c)` (R205): the status and the error record, and
nothing else. -/
def State.raise (s : State) (e : ErrCode) (q : Nat) (c : Byte) : State :=
  { s with status := .error, err := { code := e, pos := q, byte := c } }

/-- What completion leaves in the decoder (R125, R35): the next byte is an opcode, no class. -/
def State.endInstruction (s : State) : State :=
  { s with dstate := .operandByte, pending := { s.pending with opcodeClass := .none } }

/-- A `Reset` event (R230): every piece of the block's state to R50's value. The environment's
further events, the machine's parameter and the count of free values are no state of the block
and stay. -/
def State.resetBlock (s : State) : State :=
  { State.reset with inputs := s.inputs, config := s.config, draws := s.draws }

/-- An `End` event while running: Done at an instruction boundary (R210), `TruncatedInstruction`
inside an instruction (R203). -/
def State.endRunning (s : State) : State :=
  match s.dstate with
  | .operandByte => { s with status := .done }
  | .addressingByte => s.raise .truncatedInstruction s.pos 0x00#8
  | .immediateByte => s.raise .truncatedInstruction s.pos 0x00#8

/-- An `End` event at any status: Done and Error ignore it (R207). -/
def State.endStream (s : State) : State :=
  match s.status with
  | .running => s.endRunning
  | .done => s
  | .error => s

/-! ### The output ports -/

/-- The outputs of the block (R47). -/
structure Outputs where
  outHi : Word
  outLo : Word
  outValid : Bool
  outError : Bool
  outErrCode : BitVec 3
  outErrPos : Nat
  outErrByte : Byte
deriving DecidableEq, Repr

/-- R47: "All of them are combinational reads of state"; always DX and AX (D18). -/
def State.outputs (s : State) : Outputs :=
  { outHi := s.readReg .dx
    outLo := s.readReg .ax
    outValid := decide (s.status = .done)
    outError := decide (s.status = .error)
    outErrCode := s.err.code.code
    outErrPos := s.err.pos
    outErrByte := s.err.byte }

/-- R211: "A run of the block is over when `status ≠ Running`." -/
def State.isOver (s : State) : Bool := decide (s.status ≠ .running)

/-- R211: a run over with Done has the result `(x[2], x[0])`; any other has none. -/
def State.result (s : State) : Option (Word × Word) :=
  match s.status with
  | .done => some (s.readReg .dx, s.readReg .ax)
  | .running => none
  | .error => none

end Sys2Proof.Machine
end

