-- ==== Sys2Proof/Machine/Flags.lean ====
section
/-! DEFINITION. The block has no status flags and no condition codes (R27), so no instruction
computes one. What stands here are the single bits that the multiply works with: the sign of the
product (R172) and the carry out of the low-half add (R176). -/

namespace Sys2Proof.Machine

/-- R172: `sign <- m[15] ^ s[15]`. -/
def productSign (m s : Word) : Bool := m.getLsbD 15 ^^ s.getLsbD 15

/-- R176: the 17-bit sum of two words. -/
def sum17 (a b : Word) : BitVec 17 := a.setWidth 17 + b.setWidth 17

/-- R176: the bit that the low-half add carries into the high half, `t[16]`. -/
def carryOut (a b : Word) : Bool := (sum17 a b).getLsbD 16

end Sys2Proof.Machine
end

