-- ==== Sys2Proof/Machine/Multiply.lean ====
section
/-! DEFINITION. alu_imul_shift_add (spec/42_alu_imul.md): the signed 16x16 to 32 multiply by
sign-magnitude shift-and-add, R172 to R179, and the product it must equal, R171. Its working state
(R37) lives only inside one step. -/

namespace Sys2Proof.Machine

/-- The working state of the loop (R37, R174): `carry:shadow` is the 32-bit multiplicand and
`hi:lo` the accumulator. -/
structure MulWork where
  mult : Word
  shadow : Word
  carry : Word
  lo : Word
  hi : Word
deriving DecidableEq, Repr

/-- What the multiply answers (R170). -/
structure MulOut where
  hi : Word
  lo : Word
  shadowOut : Word
deriving DecidableEq, Repr

/-- R173: the unsigned magnitude of a two's-complement word, `~v + 1` where it is negative. -/
def magnitude (v : Word) : Word := if v.getLsbD 15 then ~~~v + 1#16 else v

/-- R174: the start of the loop, from the magnitudes `m` and `s`. -/
def mulStart (m s : Word) : MulWork :=
  { mult := m, shadow := s, carry := 0#16, lo := 0#16, hi := 0#16 }

/-- R175: the loop runs while `mult != 0 and (carry:shadow) != 0`. -/
def mulGoesOn (w : MulWork) : Bool := decide (w.mult ≠ 0#16) && decide (pair w.carry w.shadow ≠ 0#32)

/-- R176: add the multiplicand into the accumulator when the multiplier's low bit is set. -/
def mulAdd (w : MulWork) : MulWork :=
  if w.mult.getLsbD 0 then
    { w with
      lo := (sum17 w.lo w.shadow).setWidth 16
      hi := w.hi + w.carry + (BitVec.ofBool (carryOut w.lo w.shadow)).setWidth 16 }
  else w

/-- R177: update `carry`, shift the multiplicand left and the multiplier right. -/
def mulShift (w : MulWork) : MulWork :=
  { w with
    carry := (w.carry <<< 1) ||| (BitVec.ofBool (w.shadow.getLsbD 15)).setWidth 16
    shadow := w.shadow <<< 1
    mult := w.mult >>> 1 }

/-- One pass of the loop body (R176, R177). -/
def mulPass (w : MulWork) : MulWork := mulShift (mulAdd w)

/-- The loop of R175, with at most `fuel` passes. -/
def mulLoop : Nat → MulWork → MulWork
  | 0, w => w
  | fuel + 1, w => if mulGoesOn w then mulLoop fuel (mulPass w) else w

/-- How many passes the loop of R175 makes, up to `fuel`. -/
def mulPasses : Nat → MulWork → Nat
  | 0, _ => 0
  | fuel + 1, w => if mulGoesOn w then mulPasses fuel (mulPass w) + 1 else 0

/-- R180: "The loop runs at most 16 times." -/
def mulFuel : Nat := 16

/-- The loop from its start to its end (R174 to R177). -/
def mulUnsigned (m s : Word) : MulWork := mulLoop mulFuel (mulStart m s)

/-- R178: negate the 32-bit result held across the two registers, high word first. -/
def negateHalves (hi lo : Word) : Word × Word :=
  if ~~~lo = 0xFFFF#16 then (~~~hi + 1#16, 0x0000#16) else (~~~hi, ~~~lo + 1#16)

/-- The sign-corrected halves, high word first (R178). -/
def signCorrect (sign : Bool) (hi lo : Word) : Word × Word :=
  if sign then negateHalves hi lo else (hi, lo)

/-- `imul_16x16(m, s)` (R170, R172 to R179). -/
def imul16 (m s : Word) : MulOut :=
  let w := mulUnsigned (magnitude m) (magnitude s)
  let r := signCorrect (productSign m s) w.hi w.lo
  { hi := r.1, lo := r.2, shadowOut := w.shadow }

/-- R171's product: `( sext_32(m) * sext_32(s) ) mod 2^32`. -/
def exactProduct (m s : Word) : DWord := m.signExtend 32 * s.signExtend 32

/-- R180: the position of the highest set bit plus 1, and 0 for 0. -/
def bitLength (v : Word) : Nat := v.toNat.size

end Sys2Proof.Machine
end

