-- ==== Sys2Proof/WellFormed.lean ====
section
/-! DEFINITION. Well-formedness. The types of `Instr` already carry every bound the encoding has
(a register is one of eight, R21; an immediate is 16 bits, R88), so the checks that can fail stand
on the assembler's line (R95): the immediate must fit 16 bits, and an IMUL must write the same
register as its second operand and as its low half. -/

namespace Sys2Proof

/-- One line of R95's assembler syntax, as written: the immediate is any number, and an IMUL line
has three register operands, `rh:rl,rl2,imm`. -/
inductive AsmLine where
  | xor (rd rs : Reg)
  | mov (rd : Reg) (imm : Nat)
  | imul (rh rl rl2 : Reg) (imm : Nat)
deriving DecidableEq, Repr

/-- An immediate has 16 bits (R88). -/
def immFits (imm : Nat) : Bool := decide (imm < 65536)

/-- R95: "An assembler refuses the form when they differ." -/
def AsmLine.wf : AsmLine → Bool
  | .xor _ _ => true
  | .mov _ imm => immFits imm
  | .imul _ rl rl2 imm => decide (rl = rl2) && immFits imm

/-- The line that R95 writes for an instruction. -/
def Instr.toAsm : Instr → AsmLine
  | .xor rd rs => .xor rd rs
  | .mov rd imm => .mov rd imm.toNat
  | .imul rh rl imm => .imul rh rl rl imm.toNat

/-- An instruction is well-formed when its line is. Every `Instr` is (`Instr.wf_true` in
Laws/Fields.lean): the type has no ill-formed term. -/
def Instr.wf (i : Instr) : Bool := i.toAsm.wf

/-- The instruction a line stands for; refused where the line is ill-formed (R95). -/
def AsmLine.assemble (l : AsmLine) : Option Instr :=
  if l.wf then
    match l with
    | .xor rd rs => some (.xor rd rs)
    | .mov rd imm => some (.mov rd (BitVec.ofNat 16 imm))
    | .imul rh rl _ imm => some (.imul rh rl (BitVec.ofNat 16 imm))
  else none

end Sys2Proof
end

