-- ==== Sys2Proof/Decode.lean ====
section
/-! DEFINITION. Encoding (spec/30_encoding.md): the bit fields, the opcode map (R89), the
addressing byte (R85, R90), immediates (R87), a total decoder over byte lists that rejects by
name, the encoder (R81 to R83, R95), the host's `decodeTableWord`, and the assembler text of R95.
The byte-at-a-time machine of spec/40_decoder.md stands in Machine/Decoder.lean and uses the same
field readers. -/

namespace Sys2Proof

/-! ### Fields -/

/-- The register that a 3-bit field selects (R21). -/
def Reg.ofField (f : BitVec 3) : Reg :=
  match f with
  | 0#3 => .ax
  | 1#3 => .cx
  | 2#3 => .dx
  | 3#3 => .bx
  | 4#3 => .sp
  | 5#3 => .bp
  | 6#3 => .si
  | 7#3 => .di

/-- A register's index (R21). -/
def Reg.field : Reg → BitVec 3
  | .ax => 0#3
  | .cx => 1#3
  | .dx => 2#3
  | .bx => 3#3
  | .sp => 4#3
  | .bp => 5#3
  | .si => 6#3
  | .di => 7#3

/-- `mod`, bits 7:6 of the addressing byte (R85, R116). -/
def modField (b : Byte) : BitVec 2 := b.extractLsb' 6 2

/-- `reg`, bits 5:3 of the addressing byte (R85, R116). -/
def regField (b : Byte) : BitVec 3 := b.extractLsb' 3 3

/-- `rm`, bits 2:0 of the addressing byte (R85, R116). -/
def rmField (b : Byte) : BitVec 3 := b.extractLsb' 0 3

/-- R85, R90: `mod` must be 0b11, the register-to-register form. -/
def isRegisterForm (b : Byte) : Bool := modField b == 3#2

/-- The direction bit `d`, bit 1 of the opcode byte of formats OA and OAI (R84). -/
def directionBit (b : Byte) : Bool := b.getLsbD 1

/-- The width bit `w`, bit 0 of the opcode byte of formats OA and OAI (R84). -/
def widthBit (b : Byte) : Bool := b.getLsbD 0

/-- The destination that an addressing byte names, by `direction_flag` (R86, R118). -/
def destOf (direction : Bool) (b : Byte) : Reg :=
  if direction then Reg.ofField (regField b) else Reg.ofField (rmField b)

/-- The source that an addressing byte names, by `direction_flag` (R86, R118). -/
def srcOf (direction : Bool) (b : Byte) : Reg :=
  if direction then Reg.ofField (rmField b) else Reg.ofField (regField b)

/-- The fold of one immediate byte into the value so far (R87, R120, R121):
`(v >> 8) | (zext_16(b) << 8)`. -/
def foldByte (v : Word) (b : Byte) : Word := (v >>> 8) ||| (b.setWidth 16 <<< 8)

/-- The 16-bit immediate of two bytes, low byte first (R63, R87): `b_second:b_first`. -/
def imm16 (first second : Byte) : Word := second ++ first

/-! ### The opcode map -/

/-- What an opcode byte selects (R89). -/
inductive Opcode where
  /-- 0xB8 to 0xBF, with the register of bits 2:0. -/
  | mov (rd : Reg)
  /-- 0x31. -/
  | xor
  /-- 0x69. -/
  | imul
deriving DecidableEq, Repr

/-- The complete opcode map (R89, with the conditions of R112 to R115). -/
def opcodeOf (b : Byte) : Option Opcode :=
  if b.extractLsb' 3 5 = 0b10111#5 then some (.mov (Reg.ofField (b.extractLsb' 0 3)))
  else if b = 0x31#8 then some .xor
  else if b = 0x69#8 then some .imul
  else none

/-- An instruction's length in bytes, from its opcode alone (R80, R92). -/
def Opcode.length : Opcode → Nat
  | .xor => 2
  | .mov _ => 3
  | .imul => 4

/-! ### Decoding a list of bytes -/

/-- Why bytes are no instruction. -/
inductive DecodeReject where
  /-- The opcode byte is none of R89's (R115). -/
  | unsupportedOpcode (b : Byte)
  /-- The addressing byte is a memory form (R117). -/
  | unsupportedAddressingMode (b : Byte)
  /-- The bytes end inside an instruction, or there are none (R203). -/
  | truncated
deriving DecidableEq, Repr

/-- The decoder's answer: an instruction and the bytes after it, or a rejection by name. -/
inductive DecodeResult where
  | instr (i : Instr) (rest : List Byte)
  | reject (r : DecodeReject)
deriving DecidableEq, Repr

/-- The bytes of an XOR after its opcode byte `op` (R82). -/
def decodeXor (op : Byte) : List Byte → DecodeResult
  | a :: rest =>
    if isRegisterForm a then
      .instr (.xor (destOf (directionBit op) a) (srcOf (directionBit op) a)) rest
    else .reject (.unsupportedAddressingMode a)
  | [] => .reject .truncated

/-- The bytes of a MOV after its opcode byte (R81). -/
def decodeMov (rd : Reg) : List Byte → DecodeResult
  | b1 :: b2 :: rest => .instr (.mov rd (imm16 b1 b2)) rest
  | [_] => .reject .truncated
  | [] => .reject .truncated

/-- The bytes of an IMUL after its opcode byte `op` (R83). The addressing byte is judged when it
arrives, before any immediate byte (R117). -/
def decodeImul (op : Byte) : List Byte → DecodeResult
  | a :: rest =>
    if isRegisterForm a then
      match rest with
      | b1 :: b2 :: rest' =>
        .instr (.imul (srcOf (directionBit op) a) (destOf (directionBit op) a) (imm16 b1 b2)) rest'
      | [_] => .reject .truncated
      | [] => .reject .truncated
    else .reject (.unsupportedAddressingMode a)
  | [] => .reject .truncated

/-- The instruction that stands first in a list of bytes (R80 to R94). -/
def decode : List Byte → DecodeResult
  | [] => .reject .truncated
  | op :: rest =>
    match opcodeOf op with
    | some (.mov rd) => decodeMov rd rest
    | some .xor => decodeXor op rest
    | some .imul => decodeImul op rest
    | none => .reject (.unsupportedOpcode op)

/-! ### Encoding -/

/-- The register-form addressing byte `11 reg rm` (R85). -/
def addressingByte (reg rm : Reg) : Byte := 0b11#2 ++ reg.field ++ rm.field

/-- The MOV opcode byte `10111 r` (R81). -/
def movOpcode (rd : Reg) : Byte := 0b10111#5 ++ rd.field

/-- `imm[7:0]`, the immediate byte that comes first (R81, R83). -/
def immLow (imm : Word) : Byte := imm.extractLsb' 0 8

/-- `imm[15:8]`, the immediate byte that comes second (R81, R83). -/
def immHigh (imm : Word) : Byte := imm.extractLsb' 8 8

/-- The bytes of an instruction in stream order (R81 to R83, and R95's encoding column). -/
def encode : Instr → List Byte
  | .xor rd rs => [0x31#8, addressingByte rs rd]
  | .mov rd imm => [movOpcode rd, immLow imm, immHigh imm]
  | .imul rh rl imm => [0x69#8, addressingByte rh rl, immLow imm, immHigh imm]

/-- An instruction's length in bytes (R80). -/
def Instr.length : Instr → Nat
  | .xor _ _ => 2
  | .mov _ _ => 3
  | .imul _ _ _ => 4

/-! ### The opcode table's words -/

/-- The `n` bytes of a table word in stream order. spec/opcode_table.json reads a row's bytes as
one number whose LAST byte is least significant (XOR is `31C0`, its fixed bits 15:6 are 199), so
byte 0 of the stream is the most significant of the `n` (notes/assumptions/7.md). -/
def tableBytes : Nat → Nat → List Byte
  | 0, _ => []
  | n + 1, w => BitVec.ofNat 8 (w / 256 ^ n) :: tableBytes n w

/-- The bytes of a table word, with zero bytes after it up to the longest instruction, 4 bytes. -/
def tableStream (nbits w : Nat) : List Byte :=
  tableBytes (nbits / 8) w ++ List.replicate (4 - nbits / 8) 0#8

/-- The instruction that the decoder reads from an opcode-table word; none where it refuses. -/
def decodeTableWord (nbits w : Nat) : Option Instr :=
  match decode (tableStream nbits w) with
  | .instr i _ => some i
  | .reject _ => none

/-- The opcode-table word of an instruction's bytes, numbered as `tableBytes` reads it. -/
def tableWord : List Byte → Nat
  | [] => 0
  | b :: rest => b.toNat * 256 ^ rest.length + tableWord rest

/-! ### Assembler text (R95) -/

/-- The assembler name of a register (R21, R95). -/
def Reg.asmName : Reg → List Char
  | .ax => ['a', 'x']
  | .cx => ['c', 'x']
  | .dx => ['d', 'x']
  | .bx => ['b', 'x']
  | .sp => ['s', 'p']
  | .bp => ['b', 'p']
  | .si => ['s', 'i']
  | .di => ['d', 'i']

/-- One hexadecimal digit, lower case as R95's examples write it. -/
def hexChar (d : BitVec 4) : Char :=
  if d.toNat < 10 then Char.ofNat ('0'.toNat + d.toNat) else Char.ofNat ('a'.toNat + (d.toNat - 10))

/-- An immediate with the prefix `0x`, four digits (R95). -/
def immText (imm : Word) : List Char :=
  ['0', 'x', hexChar (imm.extractLsb' 12 4), hexChar (imm.extractLsb' 8 4),
    hexChar (imm.extractLsb' 4 4), hexChar (imm.extractLsb' 0 4)]

/-- The text of an instruction in R95's syntax: "`XOR dx,dx`, `MOV ax,0xedcc`,
`IMUL dx:ax,ax,0x5678`". -/
def Instr.asmText : Instr → List Char
  | .xor rd rs => ['X', 'O', 'R', ' '] ++ rd.asmName ++ [','] ++ rs.asmName
  | .mov rd imm => ['M', 'O', 'V', ' '] ++ rd.asmName ++ [','] ++ immText imm
  | .imul rh rl imm =>
    ['I', 'M', 'U', 'L', ' '] ++ rh.asmName ++ [':'] ++ rl.asmName ++ [','] ++ rl.asmName ++ [',']
      ++ immText imm

/-- R95: "case is not significant". -/
def lowerCase : List Char → List Char
  | [] => []
  | c :: cs => c.toLower :: lowerCase cs

/-- The text without the spaces it begins with. -/
def dropSpaces : List Char → List Char
  | [] => []
  | c :: cs => if c = ' ' then dropSpaces cs else c :: cs

/-- A register name at the front of a lower-case text (R95: "`ax cx dx bx sp bp si di`"). -/
def readRegName : List Char → Option (Reg × List Char)
  | 'a' :: 'x' :: cs => some (.ax, cs)
  | 'c' :: 'x' :: cs => some (.cx, cs)
  | 'd' :: 'x' :: cs => some (.dx, cs)
  | 'b' :: 'x' :: cs => some (.bx, cs)
  | 's' :: 'p' :: cs => some (.sp, cs)
  | 'b' :: 'p' :: cs => some (.bp, cs)
  | 's' :: 'i' :: cs => some (.si, cs)
  | 'd' :: 'i' :: cs => some (.di, cs)
  | _ => none

/-- The value of a lower-case hexadecimal digit. -/
def hexValue (c : Char) : Option Nat :=
  if '0' ≤ c ∧ c ≤ '9' then some (c.toNat - '0'.toNat)
  else if 'a' ≤ c ∧ c ≤ 'f' then some (c.toNat - 'a'.toNat + 10)
  else none

/-- A run of hexadecimal digits up to the end of the text, after the value `v` so far. -/
def readHexDigits (v : Nat) : List Char → Option Nat
  | [] => some v
  | c :: cs => (hexValue c).bind fun d => readHexDigits (16 * v + d) cs

/-- An immediate that ends the text: `0x` and at least one digit (R95). -/
def readImm : List Char → Option Nat
  | '0' :: 'x' :: c :: cs => readHexDigits 0 (c :: cs)
  | _ => none

/-- The operands `rd,rs` of an XOR. -/
def readXorOperands (cs : List Char) : Option AsmLine :=
  match readRegName cs with
  | some (rd, ',' :: cs') =>
    match readRegName cs' with
    | some (rs, []) => some (.xor rd rs)
    | _ => none
  | _ => none

/-- The operands `rd,imm16` of a MOV. -/
def readMovOperands (cs : List Char) : Option AsmLine :=
  match readRegName cs with
  | some (rd, ',' :: cs') => (readImm cs').map (AsmLine.mov rd)
  | _ => none

/-- The operands `rh:rl,rl,imm16` of an IMUL. -/
def readImulOperands (cs : List Char) : Option AsmLine :=
  match readRegName cs with
  | some (rh, ':' :: cs') =>
    match readRegName cs' with
    | some (rl, ',' :: cs'') =>
      match readRegName cs'' with
      | some (rl2, ',' :: cs''') => (readImm cs''').map (AsmLine.imul rh rl rl2)
      | _ => none
    | _ => none
  | _ => none

/-- One assembler line read from its lower-case text: the mnemonic, spaces, the operands. -/
def readLowerLine : List Char → Option AsmLine
  | 'x' :: 'o' :: 'r' :: ' ' :: cs => readXorOperands (dropSpaces cs)
  | 'm' :: 'o' :: 'v' :: ' ' :: cs => readMovOperands (dropSpaces cs)
  | 'i' :: 'm' :: 'u' :: 'l' :: ' ' :: cs => readImulOperands (dropSpaces cs)
  | _ => none

/-- The assembler of R95: the instruction that a line of text stands for, none where the text is
no line of the three forms or the line is ill-formed. -/
def assembleText (text : List Char) : Option Instr :=
  (readLowerLine (lowerCase text)).bind AsmLine.assemble

end Sys2Proof
end

