-- ==== Sys2Proof/Machine/Operands.lean ====
section
/-! DEFINITION. The operand forms: the register pair of an addressing byte (R118), the fold of an
immediate byte into `shadow` (R120) or into the destination register (R121), the 8-bit row that no
byte reaches (R122), and the descriptor these leave for the executor (R36). -/

namespace Sys2Proof.Machine

/-- R118: the addressing byte's registers, by `direction_flag`. -/
def State.assignOperands (s : State) (b : Byte) : State :=
  { s with pending := { s.pending with
      destReg := destOf s.pending.directionFlag b
      srcReg := srcOf s.pending.directionFlag b } }

/-- R120: an IMUL's immediate byte goes into `shadow`. -/
def State.foldShadow (s : State) (b : Byte) : State := s.setShadow (foldByte s.pending.shadow b)

/-- R121: a MOV's immediate byte goes into the destination register, which is the accumulator. -/
def State.foldDest (s : State) (b : Byte) : State :=
  s.writeReg s.pending.destReg (foldByte (s.readReg s.pending.destReg) b)

/-- R122, the row that no byte reaches: `x[dest_reg] <- zext_16(b)`. -/
def State.setDestByte (s : State) (b : Byte) : State :=
  s.writeReg s.pending.destReg (b.setWidth 16)

/-- Write `expect` (R32). -/
def State.setExpect (s : State) (n : BitVec 2) : State :=
  { s with pending := { s.pending with expect := n } }

/-- `expect <- expect - 1` (R119, R123). -/
def State.countDown (s : State) : State := s.setExpect (s.pending.expect - 1#2)

/-- The completed descriptor (R36): class, registers, and the immediate, which is `shadow` for IMUL
and `x[dest_reg]` for MOV. None where the class is NONE. -/
def State.descriptor (s : State) : Option Instr :=
  match s.pending.opcodeClass with
  | .none => none
  | .xor => some (.xor s.pending.destReg s.pending.srcReg)
  | .mov => some (.mov s.pending.destReg (s.readReg s.pending.destReg))
  | .imul => some (.imul s.pending.srcReg s.pending.destReg s.pending.shadow)

end Sys2Proof.Machine
end

