-- ==== Sys2Proof/Machine/Imul.lean ====
section
/-! DEFINITION. IMUL (R143), over the multiply of Machine/Multiply.lean. -/

namespace Sys2Proof.Machine

/-- The two writes of R179 and R143: `x[rl] <- lo`, then `x[rh] <- hi`. -/
def State.writeHalves (s : State) (rh rl : Reg) (hi lo : Word) : State :=
  (s.writeReg rl lo).writeReg rh hi

/-- `IMUL_SAME_REG` (R143, D13): where one register takes both halves and the parameter says
`draw`, the register holds a free value. -/
def State.settleSameReg (s : State) (rh rl : Reg) : State :=
  if rh = rl ∧ s.config.imulSameReg = .draw then
    (s.writeReg rl (Config.freeWord s.draws)).countDraw
  else s

/-- `IMUL rh:rl,rl,imm16` (R143): the product of `x[rl]` and `imm` into `x[rh]:x[rl]`, and the
multiplicand's last value left in `shadow` (R184). The old `x[rh]` is no input (R24, R174). -/
def execImul (rh rl : Reg) (imm : Word) (s : State) : Result :=
  let out := imul16 (s.readReg rl) imm
  .next (((s.setShadow out.shadowOut).writeHalves rh rl out.hi out.lo).settleSameReg rh rl)

end Sys2Proof.Machine
end

