-- ==== Sys2Proof/Machine/Logic.lean ====
section
/-! DEFINITION. XOR (R141, R145). -/

namespace Sys2Proof.Machine

/-- `XOR rd,rs` (R141): `x[rd] <- x[rd] ^ x[rs]`; no flags, no errors. -/
def execXor (rd rs : Reg) (s : State) : Result :=
  .next (s.writeReg rd (s.readReg rd ^^^ s.readReg rs))

end Sys2Proof.Machine
end

