-- ==== Sys2Proof/Machine/Move.lean ====
section
/-! DEFINITION. MOV (R142, R146). -/

namespace Sys2Proof.Machine

/-- `MOV rd,imm16` (R142): `x[rd] <- imm16`. In the machine's own run the decoder has folded the
immediate into `x[rd]` already (R121), and this writes the same value again (C4). -/
def execMov (rd : Reg) (imm : Word) (s : State) : Result := .next (s.writeReg rd imm)

end Sys2Proof.Machine
end

