-- ==== Sys2Proof/Machine/Dispatch.lean ====
section
/-! DEFINITION. execute_unit's dispatch (R140): one arm per instruction. -/

namespace Sys2Proof.Machine

def exec (i : Instr) (s : State) : Host.Outcome State Fault Refusal :=
  match i with
  | .xor rd rs => Sys2Proof.Machine.execXor rd rs s
  | .mov rd imm => Sys2Proof.Machine.execMov rd imm s
  | .imul rh rl imm => Sys2Proof.Machine.execImul rh rl imm s

end Sys2Proof.Machine
end

