-- ==== Sys2Proof/Machine/Decoder.lean ====
section
/-! DEFINITION. instruction_decoder (spec/40_decoder.md): what one `Byte(b)` event does, by the
decoder state. A byte that completes an instruction runs it in the same step (R125, R140). -/

namespace Sys2Proof.Machine

/-! ### State OperandByte -/

/-- R112: the MOV opcode byte. -/
def State.beginMov (s : State) (rd : Reg) : State :=
  { s with
    dstate := .immediateByte
    pending := { s.pending with
      opcodeClass := .mov
      destReg := rd
      operandSizeFlag := true
      directionFlag := false
      tertiary := false
      expect := 2#2 } }

/-- R113: the XOR opcode byte `b`. -/
def State.beginXor (s : State) (b : Byte) : State :=
  { s with
    dstate := .addressingByte
    pending := { s.pending with
      opcodeClass := .xor
      operandSizeFlag := widthBit b
      directionFlag := directionBit b
      tertiary := false
      expect := 1#2 } }

/-- R114: the IMUL opcode byte `b`. -/
def State.beginImul (s : State) (b : Byte) : State :=
  { s with
    dstate := .addressingByte
    pending := { s.pending with
      opcodeClass := .imul
      operandSizeFlag := widthBit b
      directionFlag := directionBit b
      tertiary := true
      expect := 3#2 } }

/-- R112 to R115: the byte `b`, at position `p`, in state OperandByte. -/
def State.takeOpcode (s : State) (p : Nat) (b : Byte) : State :=
  match opcodeOf b with
  | some (.mov rd) => s.beginMov rd
  | some .xor => s.beginXor b
  | some .imul => s.beginImul b
  | none => s.raise .unsupportedOpcode p b

/-! ### Completion -/

/-- R125: the executor runs the descriptor in this same step, and the decoder is ready for an
opcode. R140: a completed descriptor never has class NONE; where one would, the model stops. -/
def State.complete (s : State) : Result :=
  match s.descriptor with
  | some i => thenNext (exec i s) State.endInstruction
  | none => .fault .completedWithoutClass

/-- R119 and R123, after `expect` has been counted down: complete at 0, else the next byte is an
immediate byte. -/
def State.completeIfLast (s : State) : Result :=
  if s.pending.expect = 0#2 then s.complete else .next { s with dstate := .immediateByte }

/-! ### State AddressingByte -/

/-- R118 and R119: the operands of a register-form byte assigned and `expect` counted down. -/
def State.addressed (s : State) (b : Byte) : State := (s.assignOperands b).countDown

/-- R116 to R119: the byte `b`, at position `p`, in state AddressingByte. -/
def State.takeAddressing (s : State) (p : Nat) (b : Byte) : Result :=
  if isRegisterForm b then (s.addressed b).completeIfLast
  else .next (s.raise .unsupportedAddressingMode p b)

/-! ### State ImmediateByte -/

/-- R120 to R123: the immediate byte taken and `expect` counted down, the conditions tested in
R124's order. -/
def State.immediated (s : State) (b : Byte) : State :=
  if s.pending.tertiary then (s.foldShadow b).countDown
  else if s.pending.operandSizeFlag then (s.foldDest b).countDown
  else (s.setDestByte b).setExpect 0#2

/-- R120 to R125: the byte `b` in state ImmediateByte. -/
def State.takeImmediate (s : State) (b : Byte) : Result := (s.immediated b).completeIfLast

/-! ### One byte -/

/-- A byte while running (R110), at position `p`, the counter already advanced (R111). -/
def State.takeRunning (s : State) (p : Nat) (b : Byte) : Result :=
  match s.dstate with
  | .operandByte => .next (s.takeOpcode p b)
  | .addressingByte => s.takeAddressing p b
  | .immediateByte => s.takeImmediate b

/-- A `Byte(b)` event (R110): Done and Error ignore it (R207). -/
def State.takeByte (s : State) (b : Byte) : Result :=
  match s.status with
  | .running => s.advancePos.takeRunning s.pos b
  | .done => .next s
  | .error => .next s

/-- One event (R45). -/
def State.takeEvent (s : State) (e : Event) : Result :=
  match e with
  | .byte b => s.takeByte b
  | .endOfStream => .next s.endStream
  | .reset => .next s.resetBlock

end Sys2Proof.Machine
end

