-- ==== Sys2Proof/Machine/Fetch.lean ====
section
/-! DEFINITION. How bytes reach the block: the events of a stream (R61), and the placing of one
instruction so that the very next step runs it (the host's `withFetchWord`). The block has no
program memory (R60): the environment presents the stream byte by byte, and an instruction runs in
the step of its last byte (R46, R125). -/

namespace Sys2Proof.Machine

/-- The `Byte` events of a list of bytes, in stream order (R61). -/
def byteEvents (bytes : List Byte) : List Event := bytes.map Event.byte

/-- The events of a whole stream: its bytes, then `End` (R61). -/
def streamEvents (bytes : List Byte) : List Event := byteEvents bytes ++ [.endOfStream]

/-- `e` as the event that the next step handles. -/
def State.present (s : State) (e : Event) : State := { s with inputs := e :: s.inputs }

/-- A running session at an instruction boundary: the state in which an instruction's first byte
is read (R125, R231). -/
def State.atBoundary (s : State) : State := { s with status := .running, dstate := .operandByte }

/-- The bytes before an instruction's last one taken, by the decoder's own rules, and the byte that
completes it (or raises its error) left as the next event. -/
def State.takeAllButLast : List Byte → State → State
  | [], s => s
  | b :: rest, s =>
    match s.takeByte b with
    | .next t =>
      if t.status = .running ∧ t.dstate ≠ .operandByte then State.takeAllButLast rest t
      else s.present (.byte b)
    | .fault _ => s.present (.byte b)
    | .refused _ => s.present (.byte b)

end Sys2Proof.Machine
end

