-- ==== Sys2Proof/Machine/Step.lean ====
section
/-! DEFINITION. One step: one event (R45), and runs of several steps. -/

namespace Sys2Proof.Machine

/-- One step handles the oldest event presented (R45, R46). With none presented the block waits:
nothing changes (notes/assumptions/3.md). -/
def step (s : State) : Host.Outcome State Fault Refusal :=
  match s.inputs with
  | [] => .next s
  | e :: rest => ({ s with inputs := rest } : State).takeEvent e

/-- `n` steps, stopping at a fault or a refusal. -/
def runSteps : Nat → State → Result
  | 0, s => .next s
  | n + 1, s =>
    match step s with
    | .next t => runSteps n t
    | .fault r => .fault r
    | .refused r => .refused r

/-- The state in which the very next step fetches the last byte of the instruction whose
opcode-table word is `w`, and runs it: from an instruction boundary, the bytes before it taken as
the decoder takes them (notes/assumptions/6.md). -/
def State.withFetchWord (s : State) (nbits w : Nat) : State :=
  State.takeAllButLast (tableStream nbits w) s.atBoundary

end Sys2Proof.Machine
end

