-- ==== Sys2Proof/Safety.lean ====
section
/-! DEFINITION. The terms in which claims are made: the decoder's invariant and the error record's,
what a byte leaves before completion, the state in which a decoded instruction executes, and the
chain of several instructions. -/

namespace Sys2Proof.Machine

/-! ### Invariants -/

/-- What the decoder state says of the pending record (R30 to R35, R112 to R114): no class and
nothing expected at a boundary; XOR with one byte or IMUL with three to come at an addressing
byte; MOV or IMUL with one or two bytes to come at an immediate byte. -/
def State.DecoderInv (s : State) : Prop :=
  match s.dstate with
  | .operandByte => s.pending.opcodeClass = .none ∧ s.pending.expect = 0#2
  | .addressingByte =>
    s.pending.operandSizeFlag = true ∧ s.pending.directionFlag = false ∧
      ((s.pending.opcodeClass = .xor ∧ s.pending.tertiary = false ∧ s.pending.expect = 1#2) ∨
        (s.pending.opcodeClass = .imul ∧ s.pending.tertiary = true ∧ s.pending.expect = 3#2))
  | .immediateByte =>
    s.pending.operandSizeFlag = true ∧ s.pending.directionFlag = false ∧
      ((s.pending.opcodeClass = .mov ∧ s.pending.tertiary = false) ∨
        (s.pending.opcodeClass = .imul ∧ s.pending.tertiary = true)) ∧
      (s.pending.expect = 1#2 ∨ s.pending.expect = 2#2)

/-- What the status says of the error record and the decoder state (R42, R200 to R203, R205,
R210): clear while no error has been taken; a Done session stands at a boundary; an error names
its kind, its position and its byte. -/
def State.ErrorInv (s : State) : Prop :=
  match s.status with
  | .running => s.err = ErrorRecord.reset
  | .done => s.err = ErrorRecord.reset ∧ s.dstate = .operandByte
  | .error =>
    (s.err.code = .unsupportedOpcode ∧ s.dstate = .operandByte ∧ opcodeOf s.err.byte = none ∧
        s.err.pos + 1 = s.pos) ∨
      (s.err.code = .unsupportedAddressingMode ∧ s.dstate = .addressingByte ∧
        isRegisterForm s.err.byte = false ∧ s.err.pos + 1 = s.pos) ∨
      (s.err.code = .truncatedInstruction ∧ s.dstate ≠ .operandByte ∧ s.err.byte = 0x00#8 ∧
        s.err.pos = s.pos)

/-- The invariant of the machine. -/
def State.Inv (s : State) : Prop := s.DecoderInv ∧ s.ErrorInv

/-- A running session at an instruction boundary, where the next byte is an opcode (R125). -/
def State.AtBoundary (s : State) : Prop := s.status = .running ∧ s.dstate = .operandByte

/-! ### One byte, before completion -/

/-- The state in which the executor would find the machine after the operand byte `b`: the byte
counted (R111), its operand rule applied and `expect` counted down (R118 to R124). -/
def State.operandTaken (s : State) (b : Byte) : State :=
  match s.dstate with
  | .operandByte => s
  | .addressingByte => s.advancePos.addressed b
  | .immediateByte => s.advancePos.immediated b

/-- Whether the byte `b` brings `expect` to 0 (R119, R122, R123), so that an instruction
completes in its step (R125). An addressing byte must be a register form (R117). -/
def State.completedBy (s : State) (b : Byte) : Prop :=
  s.dstate ≠ .operandByte ∧ (s.dstate = .addressingByte → isRegisterForm b = true) ∧
    (s.operandTaken b).pending.expect = 0#2

/-! ### Whole instructions -/

/-- The state in which instruction `i` executes when its bytes were read from the boundary `s` and
`rest` is still presented: the bytes counted, the descriptor in the pending record, and a MOV's
immediate in its register (R112 to R121). -/
def State.decoded (s : State) (i : Instr) (rest : List Event) : State :=
  match i with
  | .xor rd rs =>
    { s with
      inputs := rest
      pos := s.pos + 2
      dstate := .addressingByte
      pending := { opcodeClass := .xor, operandSizeFlag := true, directionFlag := false,
                   destReg := rd, srcReg := rs, shadow := s.pending.shadow, expect := 0#2,
                   tertiary := false } }
  | .mov rd imm =>
    { s with
      inputs := rest
      pos := s.pos + 3
      dstate := .immediateByte
      regs := s.regs.set rd imm
      pending := { opcodeClass := .mov, operandSizeFlag := true, directionFlag := false,
                   destReg := rd, srcReg := s.pending.srcReg, shadow := s.pending.shadow,
                   expect := 0#2, tertiary := false } }
  | .imul rh rl imm =>
    { s with
      inputs := rest
      pos := s.pos + 4
      dstate := .immediateByte
      pending := { opcodeClass := .imul, operandSizeFlag := true, directionFlag := false,
                   destReg := rl, srcReg := rh, shadow := imm, expect := 0#2, tertiary := true } }

/-- Several instructions executed one after the other (R68: "The order is the stream order"). -/
def execAll : List Instr → State → Result
  | [], s => .next s
  | i :: is, s =>
    match exec i s with
    | .next t => execAll is t
    | .fault r => .fault r
    | .refused r => .refused r

/-- The bytes of several instructions, without gaps or padding (R64). -/
def encodeAll : List Instr → List Byte
  | [] => []
  | i :: is => encode i ++ encodeAll is

/-- The error that a rejected list of bytes, read from the boundary `s` and then ended, leaves in
the error record (R201 to R203). -/
def State.rejection (s : State) (bytes : List Byte) (r : DecodeReject) : ErrorRecord :=
  match r with
  | .unsupportedOpcode b => { code := .unsupportedOpcode, pos := s.pos, byte := b }
  | .unsupportedAddressingMode b =>
    { code := .unsupportedAddressingMode, pos := s.pos + 1, byte := b }
  | .truncated => { code := .truncatedInstruction, pos := s.pos + bytes.length, byte := 0x00#8 }

/-- The registers after a truncated stream: a MOV with one of its two immediate bytes keeps the
half-written value `b0:old[15:8]` (R203); any other truncation leaves the registers. -/
def State.truncatedRegs (s : State) (bytes : List Byte) : RegFile :=
  match bytes with
  | [op, b0] =>
    match opcodeOf op with
    | some (.mov rd) => s.regs.set rd (foldByte (s.regs.get rd) b0)
    | some .xor => s.regs
    | some .imul => s.regs
    | none => s.regs
  | _ => s.regs

/-- Whether the next `n` events presented hold no `Reset`. -/
def noResetIn (n : Nat) (events : List Event) : Prop := Event.reset ∉ events.take n

end Sys2Proof.Machine
end

