-- ==== Sys2Proof/Certificates/Slice0/Obligations.lean ====
section
/-! DEFINITION. The statements for the provers, one `def Obligations.<Name> : Prop` each. Every
docstring names the rule of spec/ it formalises; where a statement rests on a choice of the
model's own, the docstring says so and names the log entry. -/

open Sys2Proof Sys2Proof.Machine

/-! ### Encoding and decoding -/

/-- 30_encoding.md R81 to R86 and 95_test_vectors.md E1, L2: words written out from the spec decode
to the instructions the spec names; an opcode and an addressing byte it calls illegal do not. -/
def Obligations.SpecWordsDecodeAsWritten : Prop :=
  decode [0x31#8, 0b11010010#8] = .instr (.xor .dx .dx) [] ∧
  decode [0x31#8, 0b11001000#8] = .instr (.xor .ax .cx) [] ∧
  decode [0b10111000#8, 0xCC#8, 0xED#8] = .instr (.mov .ax 0xEDCC#16) [] ∧
  decode [0b10111111#8, 0x17#8, 0xA7#8] = .instr (.mov .di 0xA717#16) [] ∧
  decode [0x69#8, 0b11010000#8, 0x78#8, 0x56#8] = .instr (.imul .dx .ax 0x5678#16) [] ∧
  decode [0x69#8, 0b11011001#8, 0x00#8, 0x80#8] = .instr (.imul .bx .cx 0x8000#16) [] ∧
  decode [0xFF#8, 0x31#8] = .reject (.unsupportedOpcode 0xFF#8) ∧
  decode [0x31#8, 0x12#8] = .reject (.unsupportedAddressingMode 0x12#8)

/-- 30_encoding.md R80 to R87, R95: every operand of every instruction survives encoding and
decoding, whatever bytes follow, and the encoding has the length of its format. -/
def Obligations.DecodeOfEncodeIsTheInstruction : Prop :=
  ∀ (i : Instr) (rest : List Byte),
    decode (encode i ++ rest) = .instr i rest ∧ (encode i).length = i.length

/-- 30_encoding.md R89, R90, R94: each instruction has one encoding, so the bytes a decoder accepts
are the encoding of what it answers. -/
def Obligations.DecodedBytesAreTheEncoding : Prop :=
  ∀ (bytes rest : List Byte) (i : Instr), decode bytes = .instr i rest → bytes = encode i ++ rest

/-- R89: the complete opcode map, row by row; every other byte (246 of them) raises the error that
a byte in state OperandByte without an instruction raises. -/
def Obligations.OpcodeMapIsComplete : Prop :=
  opcodeOf 0x31#8 = some .xor ∧ opcodeOf 0x69#8 = some .imul ∧
  opcodeOf 0xB8#8 = some (.mov .ax) ∧ opcodeOf 0xB9#8 = some (.mov .cx) ∧
  opcodeOf 0xBA#8 = some (.mov .dx) ∧ opcodeOf 0xBB#8 = some (.mov .bx) ∧
  opcodeOf 0xBC#8 = some (.mov .sp) ∧ opcodeOf 0xBD#8 = some (.mov .bp) ∧
  opcodeOf 0xBE#8 = some (.mov .si) ∧ opcodeOf 0xBF#8 = some (.mov .di) ∧
  (∀ b : Byte, b ≠ 0x31#8 → b ≠ 0x69#8 → ¬(0xB8#8 ≤ b ∧ b ≤ 0xBF#8) → opcodeOf b = none) ∧
  ((List.range 256).filter fun n => (opcodeOf (BitVec.ofNat 8 n)).isNone).length = 246 ∧
  ∀ (s : State) (b : Byte) (rest : List Event), s.AtBoundary → s.inputs = .byte b :: rest →
    opcodeOf b = none →
    ∃ t, step s = .next t ∧ t.status = .error ∧ t.err.code = .unsupportedOpcode

/-- R90: the complete map of the addressing byte, read in state AddressingByte: 0xC0 to 0xFF are
register forms with their fields; 0x00 to 0xBF raise `UnsupportedAddressingMode`. -/
def Obligations.AddressingMapIsComplete : Prop :=
  (∀ b : Byte, isRegisterForm b = true ↔ 0xC0#8 ≤ b) ∧
  (∀ b : Byte, (regField b).toNat = b.toNat / 8 % 8 ∧ (rmField b).toNat = b.toNat % 8) ∧
  ∀ (s : State) (b : Byte) (rest : List Event), s.status = .running →
    s.dstate = .addressingByte → s.inputs = .byte b :: rest → b ≤ 0xBF#8 →
    ∃ t, step s = .next t ∧ t.status = .error ∧ t.err.code = .unsupportedAddressingMode

/-- R21: a register's index is its position in the enumeration, counted from 0, with the table's
assembler names; every 3-bit field selects by it, as the worked example's bytes show. -/
def Obligations.RegisterFieldSelectsByIndex : Prop :=
  [0#3, 1#3, 2#3, 3#3, 4#3, 5#3, 6#3, 7#3].map Reg.ofField =
    [.ax, .cx, .dx, .bx, .sp, .bp, .si, .di] ∧
  [0#3, 1#3, 2#3, 3#3, 4#3, 5#3, 6#3, 7#3].map (fun f => String.ofList (Reg.ofField f).asmName) =
    ["ax", "cx", "dx", "bx", "sp", "bp", "si", "di"] ∧
  (∀ f : BitVec 3, (Reg.ofField f).field = f) ∧ (∀ r : Reg, Reg.ofField r.field = r) ∧
  opcodeOf 0xB8#8 = some (.mov .ax) ∧
  destOf false 0xD2#8 = .dx ∧ srcOf false 0xD2#8 = .dx

/-- R87: the 16-bit immediate of MOV and IMUL, low byte first; two folds shift any prior value out
completely. -/
def Obligations.TwoFoldsAssembleTheImmediate : Prop :=
  (∀ first second : Byte,
    imm16 first second = (first.setWidth 16 ||| (second.setWidth 16 <<< 8))) ∧
  (∀ (prior : Word) (first second : Byte),
    foldByte (foldByte prior first) second = imm16 first second) ∧
  (∀ (rd : Reg) (first second : Byte) (rest : List Byte),
    decode (movOpcode rd :: first :: second :: rest) =
      .instr (.mov rd (imm16 first second)) rest) ∧
  (∀ (rh rl : Reg) (first second : Byte) (rest : List Byte),
    decode (0x69#8 :: addressingByte rh rl :: first :: second :: rest) =
      .instr (.imul rh rl (imm16 first second)) rest) ∧
  imm16 0xCC#8 0xED#8 = 0xEDCC#16 ∧ imm16 0x78#8 0x56#8 = 0x5678#16

/-- 30_encoding.md R95, in the text form that is the model's choice (log entry 13: one line without
a comment, one space, four digits): assembling the model's text of an instruction gives the
instruction, and so does any text that differs from it in case alone; an IMUL line whose second
operand is not its low half is refused, and so is an immediate that 16 bits do not hold. -/
def Obligations.AssemblerReadsItsOwnText : Prop :=
  (∀ i : Instr, assembleText i.asmText = some i ∧ assembleText (lowerCase i.asmText) = some i) ∧
  (∀ (i : Instr) (text : List Char), lowerCase text = lowerCase i.asmText →
    assembleText text = some i) ∧
  (∀ i : Instr, i.toAsm.assemble = some i) ∧
  (∀ (rh rl rl2 : Reg) (imm : Nat), rl ≠ rl2 → (AsmLine.imul rh rl rl2 imm).assemble = none) ∧
  ∀ (rh rl rd : Reg) (imm : Nat), 65536 ≤ imm →
    (AsmLine.imul rh rl rl imm).assemble = none ∧ (AsmLine.mov rd imm).assemble = none

/-- spec/opcode_table.json, with the numbering of log entry 7 and the placing of log entry 6 (the
model's): the table word of an instruction decodes to it, and the step after `withFetchWord`
runs exactly it, from any state: at a boundary again, the instruction's length counted, the events
presented before still presented, and registers as the instruction alone leaves them. -/
def Obligations.FetchWordRunsItsInstruction : Prop :=
  ∀ (i : Instr) (s : State),
    decodeTableWord (8 * i.length) (tableWord (encode i)) = some i ∧
    ∃ t u, step (s.withFetchWord (8 * i.length) (tableWord (encode i))) = .next t ∧
      exec i s = .next u ∧ t.regs = u.regs ∧ t.draws = u.draws ∧ t.AtBoundary ∧
      t.pos = s.pos + i.length ∧ t.inputs = s.inputs ∧ t.err = s.err ∧ t.config = s.config

/-! ### The decoder, byte by byte -/

/-- R112: the MOV opcode byte. -/
def Obligations.MovOpcodeByteBeginsMov : Prop :=
  ∀ (s : State) (b : Byte) (rest : List Event), s.AtBoundary → s.inputs = .byte b :: rest →
    b.extractLsb' 3 5 = 0b10111#5 →
    step s = .next { s with
      inputs := rest
      pos := s.pos + 1
      dstate := .immediateByte
      pending := { s.pending with
        opcodeClass := .mov
        destReg := Reg.ofField (b.extractLsb' 0 3)
        operandSizeFlag := true
        directionFlag := false
        tertiary := false
        expect := 2#2 } }

/-- R113 and R114: the XOR and IMUL opcode bytes. -/
def Obligations.TwoOperandOpcodeBytesBegin : Prop :=
  ∀ (s : State) (rest : List Event), s.AtBoundary →
    (s.inputs = .byte 0x31#8 :: rest →
      step s = .next { s with
        inputs := rest
        pos := s.pos + 1
        dstate := .addressingByte
        pending := { s.pending with
          opcodeClass := .xor
          operandSizeFlag := true
          directionFlag := false
          tertiary := false
          expect := 1#2 } }) ∧
    (s.inputs = .byte 0x69#8 :: rest →
      step s = .next { s with
        inputs := rest
        pos := s.pos + 1
        dstate := .addressingByte
        pending := { s.pending with
          opcodeClass := .imul
          operandSizeFlag := true
          directionFlag := false
          tertiary := true
          expect := 3#2 } })

/-- R115 and R201: an opcode byte that matches none of the three encodings ends the session before
anything but the position and the error record is written; and 0xFF as the first byte does. -/
def Obligations.UnsupportedOpcodeEndsTheSession : Prop :=
  (∀ (s : State) (b : Byte) (rest : List Event), s.AtBoundary → s.inputs = .byte b :: rest →
    b.extractLsb' 3 5 ≠ 0b10111#5 → b ≠ 0x31#8 → b ≠ 0x69#8 →
    step s = .next { s with
      inputs := rest
      pos := s.pos + 1
      status := .error
      err := { code := .unsupportedOpcode, pos := s.pos, byte := b } }) ∧
  ((List.range 256).filter fun n => (opcodeOf (BitVec.ofNat 8 n)).isNone).length = 246 ∧
  ErrCode.unsupportedOpcode.code = 1#3 ∧
  step { State.reset with inputs := [.byte 0xFF#8] } = .next { State.reset with
    pos := 1
    status := .error
    err := { code := .unsupportedOpcode, pos := 0, byte := 0xFF#8 } }

/-- R117: an addressing byte that is a memory form ends the session the same way; `31 12` does at
its second byte. -/
def Obligations.MemoryFormEndsTheSession : Prop :=
  (∀ (s : State) (b : Byte) (rest : List Event), s.status = .running →
    s.dstate = .addressingByte → s.inputs = .byte b :: rest → b.extractLsb' 6 2 ≠ 0b11#2 →
    step s = .next { s with
      inputs := rest
      pos := s.pos + 1
      status := .error
      err := { code := .unsupportedAddressingMode, pos := s.pos, byte := b } }) ∧
  ErrCode.unsupportedAddressingMode.code = 2#3 ∧
  ∃ t, runSteps 2 { State.reset with inputs := [.byte 0x31#8, .byte 0x12#8] } = .next t ∧
    t.err = { code := .unsupportedAddressingMode, pos := 1, byte := 0x12#8 }

/-- R118 and R119: a register-form byte assigns the operands by `direction_flag` and counts down;
with nothing more expected the instruction completes, else an immediate byte is next. -/
def Obligations.RegisterFormAssignsOperands : Prop :=
  ∀ (s : State) (b : Byte) (rest : List Event), s.status = .running →
    s.dstate = .addressingByte → s.inputs = .byte b :: rest → b.extractLsb' 6 2 = 0b11#2 →
    step s =
      (let reg := Reg.ofField (b.extractLsb' 3 3)
       let rm := Reg.ofField (b.extractLsb' 0 3)
       let u : State := { s with
         inputs := rest
         pos := s.pos + 1
         pending := { s.pending with
           destReg := if s.pending.directionFlag then reg else rm
           srcReg := if s.pending.directionFlag then rm else reg
           expect := s.pending.expect - 1#2 } }
       if s.pending.expect - 1#2 = 0#2 then u.complete
       else .next { u with dstate := .immediateByte })

/-- R120 and R123: an IMUL's immediate byte is folded into `shadow`, no register is written before
completion, two bytes give `b1:b0` whatever `shadow` held, and bytes 0x78 then 0x56 give 0x7800
and then 0x5678. -/
def Obligations.ImulImmediateFoldsIntoShadow : Prop :=
  (∀ (s : State) (b : Byte) (rest : List Event), s.status = .running →
    s.dstate = .immediateByte → s.pending.tertiary = true → s.inputs = .byte b :: rest →
    step s =
      (let u : State := { s with
         inputs := rest
         pos := s.pos + 1
         pending := { s.pending with
           shadow := (s.pending.shadow >>> 8) ||| (b.setWidth 16 <<< 8)
           expect := s.pending.expect - 1#2 } }
       if s.pending.expect - 1#2 = 0#2 then u.complete else .next u)) ∧
  (∀ (v : Word) (b0 b1 : Byte),
    foldByte v b0 = imm16 (v.extractLsb' 8 8) b0 ∧ foldByte (foldByte v b0) b1 = imm16 b0 b1) ∧
  foldByte 0x0000#16 0x78#8 = 0x7800#16 ∧ foldByte 0x7800#16 0x56#8 = 0x5678#16

/-- R121 and R123: a MOV's immediate byte is folded into the destination register itself: after the
first byte it holds `b0:old[15:8]`, after the second `b1:b0`. -/
def Obligations.MovImmediateFoldsIntoItsRegister : Prop :=
  (∀ (s : State) (b : Byte) (rest : List Event), s.status = .running →
    s.dstate = .immediateByte → s.pending.tertiary = false →
    s.pending.operandSizeFlag = true → s.inputs = .byte b :: rest →
    step s =
      (let rd := s.pending.destReg
       let u : State := { s with
         inputs := rest
         pos := s.pos + 1
         regs := s.regs.set rd ((s.regs.get rd >>> 8) ||| (b.setWidth 16 <<< 8))
         pending := { s.pending with expect := s.pending.expect - 1#2 } }
       if s.pending.expect - 1#2 = 0#2 then u.complete else .next u)) ∧
  (∀ (v : Word) (b0 b1 : Byte),
    foldByte v b0 = imm16 (v.extractLsb' 8 8) b0 ∧ foldByte (foldByte v b0) b1 = imm16 b0 b1) ∧
  foldByte 0x0000#16 0xCC#8 = 0xCC00#16 ∧ foldByte 0xCC00#16 0xED#8 = 0xEDCC#16

/-- R122: the 8-bit row, kept as the rule says a model may keep it: it writes `zext_16(b)` and
completes; and no byte reaches it, because in every state of the invariant an immediate byte finds
`tertiary` or `operand_size_flag` set. -/
def Obligations.EightBitRowIsUnreachable : Prop :=
  (∀ (s : State) (b : Byte) (rest : List Event), s.status = .running →
    s.dstate = .immediateByte → s.pending.tertiary = false →
    s.pending.operandSizeFlag = false → s.inputs = .byte b :: rest →
    step s = ({ s with
      inputs := rest
      pos := s.pos + 1
      regs := s.regs.set s.pending.destReg (b.setWidth 16)
      pending := { s.pending with expect := 0#2 } } : State).complete) ∧
  ∀ s : State, s.Inv → s.dstate = .immediateByte →
    s.pending.tertiary = true ∨ s.pending.operandSizeFlag = true

/-- R125 and R140, and "a step runs the decoded instruction": in the step of the byte that brings
`expect` to 0 the executor runs the completed descriptor, and the decoder is back at OperandByte
with class NONE. `operandTaken` is the state with that byte's operand rule applied. -/
def Obligations.CompletingStepRunsTheDescriptor : Prop :=
  ∀ (s : State) (b : Byte) (rest : List Event) (i : Instr), s.status = .running →
    s.inputs = .byte b :: rest → s.completedBy b →
    (({ s with inputs := rest } : State).operandTaken b).descriptor = some i →
    ∃ t, exec i (({ s with inputs := rest } : State).operandTaken b) = .next t ∧
      step s = .next { t with
        dstate := .operandByte
        pending := { t.pending with opcodeClass := .none } }

/-! ### Streams -/

/-- 40_decoder.md R110 to R125 and 41_execute.md R140: from an instruction boundary, when the bytes
presented decode to `i`, as many steps as `i` has bytes run exactly `i`, in the state its decoding
leaves, and stand at the next boundary with the other bytes still presented. -/
def Obligations.PresentedBytesRunTheirInstruction : Prop :=
  ∀ (s : State) (bytes tail : List Byte) (i : Instr) (rest : List Event), s.AtBoundary →
    decode bytes = .instr i tail → s.inputs = byteEvents bytes ++ rest →
    ∃ t, exec i (s.decoded i (byteEvents tail ++ rest)) = .next t ∧
      runSteps i.length s = .next t.endInstruction ∧ t.endInstruction.AtBoundary

/-- 20_memory.md R64, R68 and 60_exceptions.md R210: a stream made of whole instructions, then End,
is Done after one step for each of its bytes and one for End, with the registers that executing
the instructions in stream order leaves. -/
def Obligations.StreamOfInstructionsEndsDone : Prop :=
  ∀ (is : List Instr) (s : State) (rest : List Event), s.AtBoundary →
    s.inputs = streamEvents (encodeAll is) ++ rest →
    ∃ t u, runSteps ((encodeAll is).length + 1) s = .next t ∧ execAll is s = .next u ∧
      t.status = .done ∧ t.regs = u.regs ∧ t.draws = u.draws ∧
      t.pos = s.pos + (encodeAll is).length ∧ t.err = s.err ∧ t.inputs = rest

/-- 40_decoder.md R115, R117 and 60_exceptions.md R201 to R206: a nonempty stream that the decoder
rejects ends in Error with the rejection's record; the registers are as they were, but for a MOV
cut off after one immediate byte, which keeps its half-written value. That the ignored events of
the stream are used up (`t.inputs = rest`) is the model's choice, log entry 3. -/
def Obligations.RejectedStreamEndsInItsError : Prop :=
  ∀ (s : State) (bytes : List Byte) (r : DecodeReject) (rest : List Event), s.AtBoundary →
    bytes ≠ [] → decode bytes = .reject r → s.inputs = streamEvents bytes ++ rest →
    ∃ t, runSteps (bytes.length + 1) s = .next t ∧ t.status = .error ∧
      t.err = s.rejection bytes r ∧ t.inputs = rest ∧ t.draws = s.draws ∧
      t.regs = (if r = .truncated then s.truncatedRegs bytes else s.regs)

/-! ### Ends, errors, reset -/

/-- R203 and R210: End inside an instruction raises `TruncatedInstruction` and keeps registers and
record; End at a boundary gives Done, whose outputs are DX and AX; an empty stream goes straight
from reset to Done with zeros. -/
def Obligations.EndOfStreamEndsTheSession : Prop :=
  (∀ (s : State) (rest : List Event), s.status = .running → s.dstate ≠ .operandByte →
    s.inputs = .endOfStream :: rest →
    step s = .next { s with
      inputs := rest
      status := .error
      err := { code := .truncatedInstruction, pos := s.pos, byte := 0x00#8 } }) ∧
  (∀ (s : State) (rest : List Event), s.AtBoundary → s.inputs = .endOfStream :: rest →
    step s = .next { s with inputs := rest, status := .done } ∧
    ({ s with inputs := rest, status := .done } : State).outputs.outValid = true ∧
    ({ s with inputs := rest, status := .done } : State).outputs.outHi = s.regs.dx ∧
    ({ s with inputs := rest, status := .done } : State).outputs.outLo = s.regs.ax) ∧
  ∃ t, step { State.reset with inputs := streamEvents [] } = .next t ∧ t.status = .done ∧
    t.result = some (0x0000#16, 0x0000#16)

/-- 60_exceptions.md R207: while Done or Error stands, Byte and End events change no state of the
block, over any number of steps; only a Reset leaves these states. That the ignored events are used
up and that a step without an event changes nothing (`inputs := s.inputs.drop n`) is the model's
choice, log entry 3. -/
def Obligations.DoneAndErrorLastUntilReset : Prop :=
  (∀ (n : Nat) (s : State), s.status ≠ .running → noResetIn n s.inputs →
    runSteps n s = .next { s with inputs := s.inputs.drop n }) ∧
  ∀ (s t : State), s.status ≠ .running → step s = .next t → t.status ≠ s.status →
    s.inputs.head? = some .reset ∧ t.status = .running

/-- 60_exceptions.md R205: a step that takes an error changes the status, the error record and, for
a byte, the position, and nothing else of the block. That each event can raise only its own error
is the spec's own derivation, R209 with R206, both marked "[derived: ...]". -/
def Obligations.ErrorsArePrecise : Prop :=
  ∀ (s t : State), s.status = .running → step s = .next t → t.status = .error →
    t.regs = s.regs ∧ t.dstate = s.dstate ∧ t.pending = s.pending ∧ t.draws = s.draws ∧
    ((∃ b rest, s.inputs = .byte b :: rest ∧ s.dstate = .operandByte ∧ opcodeOf b = none ∧
        t.err = { code := .unsupportedOpcode, pos := s.pos, byte := b } ∧ t.pos = s.pos + 1) ∨
      (∃ b rest, s.inputs = .byte b :: rest ∧ s.dstate = .addressingByte ∧
        isRegisterForm b = false ∧
        t.err = { code := .unsupportedAddressingMode, pos := s.pos, byte := b } ∧
        t.pos = s.pos + 1) ∨
      (∃ rest, s.inputs = .endOfStream :: rest ∧ s.dstate ≠ .operandByte ∧
        t.err = { code := .truncatedInstruction, pos := s.pos, byte := 0x00#8 } ∧
        t.pos = s.pos))

/-- R50: the reset value of every piece of the block's state, with R26's zero in every register. -/
def Obligations.ResetStateHasTheSpecsValues : Prop :=
  (∀ r : Reg, State.reset.readReg r = 0x0000#16) ∧
  State.reset.dstate = .operandByte ∧ State.reset.pending.opcodeClass = .none ∧
  State.reset.pending.operandSizeFlag = false ∧ State.reset.pending.directionFlag = false ∧
  State.reset.pending.tertiary = false ∧
  State.reset.pending.destReg.field = 0#3 ∧ State.reset.pending.srcReg.field = 0#3 ∧
  State.reset.pending.shadow = 0x0000#16 ∧ State.reset.pending.expect = 0#2 ∧
  State.reset.pos = 0 ∧ State.reset.status = .running ∧
  State.reset.err.code.code = 0#3 ∧ State.reset.err.pos = 0 ∧ State.reset.err.byte = 0x00#8

/-- 70_reset_and_hazards.md R230: a Reset event, in any state and at any status, gives R50's values.
That the parameter, the count of free values and the further events stay is the model's choice,
log entries 1 and 3. -/
def Obligations.ResetEventGivesTheResetState : Prop :=
  ∀ (s : State) (rest : List Event), s.inputs = .reset :: rest →
    ∃ t, step s = .next t ∧
      t = { State.reset with inputs := rest, config := s.config, draws := s.draws } ∧
      t.status = .running ∧ t.dstate = .operandByte ∧ t.pos = 0 ∧
      (∀ r : Reg, t.readReg r = 0x0000#16) ∧ t.err = ErrorRecord.reset

/-- 70_reset_and_hazards.md R231: no state carries over from one session to the next: two machines
of the same parameter and free values that are reset and then see the same events behave alike,
whatever they held before. -/
def Obligations.SessionsDoNotInterfere : Prop :=
  ∀ (s1 s2 : State) (events : List Event) (n : Nat), s1.config = s2.config →
    s1.draws = s2.draws → s1.inputs = .reset :: events → s2.inputs = .reset :: events →
    runSteps (n + 1) s1 = runSteps (n + 1) s2

/-- 70_reset_and_hazards.md R232: under `high_wins` a session is a function of its stream: after
reset, the same events give the same state whatever the free values are, so the same final
registers. (R232's one exception, `draw`, is the subject of `ImulWritesTheSignedProduct`.) -/
def Obligations.SameStreamSameState : Prop :=
  ∀ (s1 s2 t : State) (events : List Event) (n : Nat), s1.config.imulSameReg = .highWins →
    s2.config = s1.config → s1.inputs = .reset :: events → s2.inputs = .reset :: events →
    runSteps (n + 1) s1 = .next t →
    runSteps (n + 1) s2 = .next { t with draws := s2.draws }

/-- R47: the output ports are reads of DX, AX, the status and the error record, in every state. -/
def Obligations.OutputsReadDxAndAx : Prop :=
  ∀ s : State,
    s.outputs.outHi = s.regs.dx ∧ s.outputs.outLo = s.regs.ax ∧
    (s.outputs.outValid = true ↔ s.status = .done) ∧
    (s.outputs.outError = true ↔ s.status = .error) ∧
    s.outputs.outErrCode = s.err.code.code ∧ s.outputs.outErrPos = s.err.pos ∧
    s.outputs.outErrByte = s.err.byte

/-- 10_state.md R30, R31, R41 and 60_exceptions.md R200: the encodings of the enumerated fields. -/
def Obligations.FieldEncodings : Prop :=
  [DecoderState.operandByte, .addressingByte, .immediateByte].map DecoderState.code =
    [0#2, 1#2, 2#2] ∧
  [OpcodeClass.none, .xor, .mov, .imul].map OpcodeClass.code = [0#2, 1#2, 2#2, 3#2] ∧
  [Status.running, .done, .error].map Status.code = [0#2, 1#2, 2#2] ∧
  [ErrCode.none, .unsupportedOpcode, .unsupportedAddressingMode, .truncatedInstruction,
    .malformedInput].map ErrCode.code = [0#3, 1#3, 2#3, 3#3, 4#3]

/-! ### The instructions -/

/-- R141: XOR completes from every state, for every pair of registers; the destination gets the
exclusive or of the two old values, 0 when they are one register; nothing else of the state
changes; it is encoded as `31 /r`; and after its opcode byte a memory form raises
`UnsupportedAddressingMode` instead. -/
def Obligations.XorWritesTheExclusiveOr : Prop :=
  ∀ (rd rs : Reg) (s : State), ∃ t, exec (.xor rd rs) s = .next t ∧
    t.readReg rd = s.readReg rd ^^^ s.readReg rs ∧
    (rd = rs → t.readReg rd = 0x0000#16) ∧
    (∀ r : Reg, r ≠ rd → t.readReg r = s.readReg r) ∧
    t = { s with regs := t.regs } ∧
    encode (.xor rd rs) =
      [0x31#8, 0xC0#8 ||| (rs.field.setWidth 8 <<< 3) ||| rd.field.setWidth 8] ∧
    ∀ (b : Byte) (rest : List Event), s.AtBoundary → s.inputs = .byte 0x31#8 :: .byte b :: rest →
      isRegisterForm b = false →
      ∃ u, runSteps 2 s = .next u ∧ u.regs = s.regs ∧ u.status = .error ∧
        u.err.code = .unsupportedAddressingMode

/-- R145: XOR is bitwise, and twice with distinct registers restores the destination. -/
def Obligations.XorIsBitwiseAndItsOwnInverse : Prop :=
  ∀ (rd rs : Reg) (s : State), ∃ t, exec (.xor rd rs) s = .next t ∧
    (∀ i : Nat, (t.readReg rd).getLsbD i =
      ((s.readReg rd).getLsbD i ^^ (s.readReg rs).getLsbD i)) ∧
    (rd ≠ rs → ∃ u, exec (.xor rd rs) t = .next u ∧ u = s)

/-- R142: MOV completes from every state, for every register and every immediate; the register gets
the immediate unchanged, whatever it held; nothing else of the state changes; and where the
register already holds the immediate, as after the second fold, nothing changes at all. A MOV cut
off after one immediate byte never executes and leaves the register half written. R146: the copy is
without extension or truncation. -/
def Obligations.MovWritesTheImmediate : Prop :=
  ∀ (rd : Reg) (imm : Word) (s : State), ∃ t, exec (.mov rd imm) s = .next t ∧
    t.readReg rd = imm ∧
    (∀ r : Reg, r ≠ rd → t.readReg r = s.readReg r) ∧
    t = { s with regs := t.regs } ∧
    (s.readReg rd = imm → t = s) ∧
    encode (.mov rd imm) =
      [0xB8#8 ||| rd.field.setWidth 8, imm.extractLsb' 0 8, imm.extractLsb' 8 8] ∧
    ∀ (b0 : Byte) (rest : List Event), s.AtBoundary →
      s.inputs = streamEvents [movOpcode rd, b0] ++ rest →
      ∃ u, runSteps 3 s = .next u ∧ u.status = .error ∧ u.err.code = .truncatedInstruction ∧
        u.regs = s.regs.set rd (foldByte (s.regs.get rd) b0)

/-- 41_execute.md R143: IMUL completes from every state, for every pair of registers and every
immediate. With two registers, `rh:rl` gets the exact signed product of the old `x[rl]` and the
immediate. With one register for both halves, it gets the high half under `high_wins` and an
unconstrained value under `draw`. That this value is the opaque `Config.freeWord` of the counter
`draws`, and that the counter goes up by one, is the model's choice, log entry 1; the clause holds
for every free value. Every other register and every other piece of state stays, but for `shadow`,
the multiplicand's last value (R184, log entry 9). It is encoded as `69 /r iw`; and after its opcode
byte a memory form raises `UnsupportedAddressingMode` instead. -/
def Obligations.ImulWritesTheSignedProduct : Prop :=
  ∀ (rh rl : Reg) (imm : Word) (s : State), ∃ t, exec (.imul rh rl imm) s = .next t ∧
    (rh ≠ rl → pair (t.readReg rh) (t.readReg rl) =
      (s.readReg rl).signExtend 32 * imm.signExtend 32) ∧
    (rh = rl → s.config.imulSameReg = .highWins → t.readReg rh =
      ((s.readReg rl).signExtend 32 * imm.signExtend 32).extractLsb' 16 16) ∧
    (rh = rl → s.config.imulSameReg = .draw → t.readReg rh = Config.freeWord s.draws) ∧
    (∀ r : Reg, r ≠ rh → r ≠ rl → t.readReg r = s.readReg r) ∧
    t.pending.shadow = (imul16 (s.readReg rl) imm).shadowOut ∧
    t.draws = (if rh = rl ∧ s.config.imulSameReg = .draw then s.draws + 1 else s.draws) ∧
    t = { s with
      regs := t.regs
      pending := { s.pending with shadow := t.pending.shadow }
      draws := t.draws } ∧
    encode (.imul rh rl imm) =
      [0x69#8, 0xC0#8 ||| (rh.field.setWidth 8 <<< 3) ||| rl.field.setWidth 8,
        imm.extractLsb' 0 8, imm.extractLsb' 8 8] ∧
    ∀ (b : Byte) (rest : List Event), s.AtBoundary → s.inputs = .byte 0x69#8 :: .byte b :: rest →
      isRegisterForm b = false →
      ∃ u, runSteps 2 s = .next u ∧ u.regs = s.regs ∧ u.status = .error ∧
        u.err.code = .unsupportedAddressingMode

/-- 41_execute.md R143, 42_alu_imul.md R174: "The old value of `x[src]` never affects the result." -/
def Obligations.OldHighRegisterIsNoInput : Prop :=
  ∀ (rh rl : Reg) (imm v : Word) (s : State), rh ≠ rl →
    exec (.imul rh rl imm) (s.writeReg rh v) = exec (.imul rh rl imm) s

/-- 10_state.md R43: no instruction reads or writes the decoder state, the pending-instruction
record (but for `shadow`, which an IMUL leaves as R184 says), the position, the status or the
error record: two machines with the same registers, parameter and free values, whatever else they
hold, end an instruction with the same registers, and all the rest stays as each machine had it. -/
def Obligations.InstructionsReadOnlyRegisters : Prop :=
  ∀ (i : Instr) (s1 s2 : State), s1.regs = s2.regs → s1.config = s2.config →
    s1.draws = s2.draws →
    ∃ t1 t2, exec i s1 = .next t1 ∧ exec i s2 = .next t2 ∧ t1.regs = t2.regs ∧
      t1.draws = t2.draws ∧
      t1 = { s1 with
        regs := t1.regs
        pending := { s1.pending with shadow := t1.pending.shadow }
        draws := t1.draws }

/-! ### The multiply -/

/-- R171: the shift-and-add multiply answers the exact signed product, for all 2^32 pairs: as 32
bits, as an integer in the stated range, and, where both operands are at most 0x7FFF, as the
unsigned product. -/
def Obligations.MultiplyIsTheExactSignedProduct : Prop :=
  ∀ m s : Word,
    pair (imul16 m s).hi (imul16 m s).lo = m.signExtend 32 * s.signExtend 32 ∧
    (pair (imul16 m s).hi (imul16 m s).lo).toInt = m.toInt * s.toInt ∧
    -1073709056 ≤ m.toInt * s.toInt ∧ m.toInt * s.toInt ≤ 1073741824 ∧
    (m.toNat ≤ 0x7FFF → s.toNat ≤ 0x7FFF →
      (pair (imul16 m s).hi (imul16 m s).lo).toNat = m.toNat * s.toNat)

/-- R180: the loop makes exactly `(S = 0) ? 0 : bitlen(M)` passes, at most 16, so the bound of 16
cuts nothing off: with any larger bound it makes the same passes, and after them it would not go
on. -/
def Obligations.LoopMakesBitLengthPasses : Prop :=
  (∀ (m s : Word) (fuel : Nat), 16 ≤ fuel →
    mulPasses fuel (mulStart m s) = (if s = 0#16 then 0 else bitLength m) ∧
    mulPasses fuel (mulStart m s) ≤ 16 ∧
    mulLoop fuel (mulStart m s) = mulUnsigned m s ∧
    mulGoesOn (mulUnsigned m s) = false) ∧
  (∀ (m : Word) (k : Nat), m.toNat < 2 ^ k ↔ bitLength m ≤ k) ∧
  bitLength 0x0000#16 = 0 ∧ bitLength 0x1234#16 = 13 ∧ bitLength 0x8000#16 = 16 ∧
  bitLength 0x0001#16 = 1

/-- R181: the unsigned product of two magnitudes stands in `hi:lo` before the sign correction and
is at most 0x40000000, so `hi` is at most 0x4000; no add into `hi` wraps on the way; and only
0x8000 by 0x8000 reaches the bound. -/
def Obligations.UnsignedProductNeverWraps : Prop :=
  ∀ m s : Word,
    (pair (mulUnsigned (magnitude m) (magnitude s)).hi
        (mulUnsigned (magnitude m) (magnitude s)).lo).toNat =
      (magnitude m).toNat * (magnitude s).toNat ∧
    (magnitude m).toNat * (magnitude s).toNat ≤ 0x40000000 ∧
    (mulUnsigned (magnitude m) (magnitude s)).hi ≤ 0x4000#16 ∧
    (∀ n : Nat,
      let w := mulLoop n (mulStart (magnitude m) (magnitude s))
      mulGoesOn w = true → w.mult.getLsbD 0 = true →
      w.hi.toNat + w.carry.toNat + (BitVec.ofBool (carryOut w.lo w.shadow)).toNat < 65536) ∧
    ((magnitude m).toNat * (magnitude s).toNat = 0x40000000 → m = 0x8000#16 ∧ s = 0x8000#16)

/-- R178 and R185: the half-by-half negation of step 4 is the 32-bit two's-complement negation, for
every value; without the sign the halves stay. -/
def Obligations.SignCorrectionIsNegation : Prop :=
  ∀ hi lo : Word,
    pair (signCorrect true hi lo).1 (signCorrect true hi lo).2 = ~~~(pair hi lo) + 1#32 ∧
    signCorrect false hi lo = (hi, lo)

/-- R182: with a zero operand the loop makes no pass and both halves are 0, whatever the sign. -/
def Obligations.ZeroOperandGivesZero : Prop :=
  ∀ m s : Word, m = 0#16 ∨ s = 0#16 →
    mulPasses mulFuel (mulStart (magnitude m) (magnitude s)) = 0 ∧
    (mulUnsigned (magnitude m) (magnitude s)).hi = 0x0000#16 ∧
    (mulUnsigned (magnitude m) (magnitude s)).lo = 0x0000#16 ∧
    (imul16 m s).hi = 0x0000#16 ∧ (imul16 m s).lo = 0x0000#16

/-- R183: the result's sign and range follow from the operands' signs, the listed extremes hold,
and the multiply is commutative. -/
def Obligations.ProductFollowsTheSigns : Prop :=
  (∀ m s : Word,
    let v := pair (imul16 m s).hi (imul16 m s).lo
    let p := (magnitude m).toNat * (magnitude s).toNat
    (m.getLsbD 15 = false → s.getLsbD 15 = false → v.toNat = p ∧ p ≤ 0x3FFF0001) ∧
    (m.getLsbD 15 ≠ s.getLsbD 15 →
      v = -(BitVec.ofNat 32 p) ∧ (v = 0#32 ∨ 0xC0008000#32 ≤ v)) ∧
    (m.getLsbD 15 = true → s.getLsbD 15 = true → v.toNat = p ∧ 1 ≤ p ∧ p ≤ 0x40000000) ∧
    pair (imul16 s m).hi (imul16 s m).lo = v) ∧
  imul16 0x7FFF#16 0x7FFF#16 = { hi := 0x3FFF#16, lo := 0x0001#16, shadowOut := 0x8000#16 } ∧
  imul16 0x8000#16 0x8000#16 = { hi := 0x4000#16, lo := 0x0000#16, shadowOut := 0x0000#16 } ∧
  imul16 0x7FFF#16 0x8000#16 = { hi := 0xC000#16, lo := 0x8000#16, shadowOut := 0x0000#16 } ∧
  imul16 0xFFFF#16 0xFFFF#16 = { hi := 0x0000#16, lo := 0x0001#16, shadowOut := 0x0002#16 } ∧
  imul16 0xFFFF#16 0x0001#16 = { hi := 0xFFFF#16, lo := 0xFFFF#16, shadowOut := 0x0002#16 } ∧
  imul16 0x8000#16 0x0001#16 = { hi := 0xFFFF#16, lo := 0x8000#16, shadowOut := 0x0000#16 }

/-- R184: after the multiply `shadow` holds `(S << k)[15:0]`, with k from R180. -/
def Obligations.ShadowHoldsTheShiftedMultiplicand : Prop :=
  (∀ m s : Word,
    (imul16 m s).shadowOut =
      magnitude s <<< (if magnitude s = 0#16 then 0 else bitLength (magnitude m))) ∧
  (imul16 0xEDCC#16 0x5678#16).shadowOut = 0x0000#16 ∧
  (imul16 0x0001#16 0x0001#16).shadowOut = 0x0002#16

/-! ### The whole machine -/

/-- 10_state.md R32, R42, R50: the invariant holds at reset. -/
def Obligations.InvariantHoldsAtReset : Prop := State.reset.Inv

/-- 10_state.md R30 to R35, R42 and 60_exceptions.md R200 to R210: every step keeps the invariant:
what the decoder state says of the pending record, and what the status says of the error record,
from every state that has it. -/
def Obligations.EveryStepKeepsTheInvariant : Prop :=
  ∀ s t : State, s.Inv → step s = .next t → t.Inv

/-- 41_execute.md R140: "A completed descriptor never has class NONE. The executor raises no
error": from every state of the invariant a step answers a next state, never a fault or a
refusal. -/
def Obligations.NoStepStops : Prop :=
  ∀ s : State, s.Inv → ∃ t, step s = .next t

/-- R23: registers are written in exactly the places the rule lists: by a completing XOR, by a
completing IMUL (`dest` and `src`), by each immediate byte of a MOV, and by reset. -/
def Obligations.OnlyTheListedWritersWriteRegisters : Prop :=
  ∀ (s t : State) (r : Reg), s.Inv → step s = .next t → t.readReg r ≠ s.readReg r →
    s.inputs.head? = some .reset ∨
    (s.status = .running ∧ ∃ b, s.inputs.head? = some (.byte b) ∧
      ((s.pending.opcodeClass = .xor ∧ s.completedBy b ∧ r = t.pending.destReg) ∨
        (s.pending.opcodeClass = .imul ∧ s.completedBy b ∧
          (r = t.pending.destReg ∨ r = t.pending.srcReg)) ∨
        (s.pending.opcodeClass = .mov ∧ s.dstate = .immediateByte ∧ r = s.pending.destReg)))

/-- R111: every byte consumed while running advances the position by one, a byte that raises an
error too; R40: nothing else changes it, except reset, which sets it to 0. -/
def Obligations.PositionCountsConsumedBytes : Prop :=
  ∀ s t : State, step s = .next t →
    t.pos =
      match s.inputs.head? with
      | some (.byte _) => if s.status = .running then s.pos + 1 else s.pos
      | some .endOfStream => s.pos
      | some .reset => 0
      | none => s.pos

/-- R32: the opcode byte sets `expect` to the bytes still to come (3 for IMUL, 1 for XOR, 2 for
MOV), each later byte decrements it by one, and it is 0 whenever `dstate` is OperandByte. -/
def Obligations.ExpectCountsTheBytesToCome : Prop :=
  ∀ (s t : State) (b : Byte) (rest : List Event), s.Inv → s.status = .running →
    s.inputs = .byte b :: rest → step s = .next t → t.status = .running →
    (s.dstate = .operandByte →
      (t.pending.opcodeClass = .imul ∧ t.pending.expect = 3#2) ∨
      (t.pending.opcodeClass = .xor ∧ t.pending.expect = 1#2) ∨
      (t.pending.opcodeClass = .mov ∧ t.pending.expect = 2#2)) ∧
    (s.dstate ≠ .operandByte → t.pending.expect.toNat + 1 = s.pending.expect.toNat) ∧
    (t.dstate = .operandByte ↔ t.pending.expect = 0#2)

/-- R35: completion sets OperandByte and NONE, with `expect` 0; the flags and `tertiary` keep their
values, and so do the registers' indices once the addressing byte has set them. -/
def Obligations.CompletionKeepsTheRecord : Prop :=
  ∀ (s t : State) (b : Byte) (rest : List Event), s.Inv → s.status = .running →
    s.inputs = .byte b :: rest → s.completedBy b → step s = .next t →
    t.dstate = .operandByte ∧ t.pending.opcodeClass = .none ∧ t.pending.expect = 0#2 ∧
    t.pending.operandSizeFlag = s.pending.operandSizeFlag ∧
    t.pending.directionFlag = s.pending.directionFlag ∧
    t.pending.tertiary = s.pending.tertiary ∧
    (s.dstate = .immediateByte →
      t.pending.destReg = s.pending.destReg ∧ t.pending.srcReg = s.pending.srcReg) ∧
    (s.dstate = .addressingByte →
      t.pending.destReg = destOf s.pending.directionFlag b ∧
      t.pending.srcReg = srcOf s.pending.directionFlag b)

/-- 10_state.md R33: "Nothing outside the IMUL path writes or reads `shadow`": a step that changes
it is a reset or a byte of an IMUL's immediate; and what an earlier IMUL left in it reaches no
other part of the state: two boundaries that differ in `shadow` alone run any instruction to the
same state but for it. -/
def Obligations.OnlyImulUsesShadow : Prop :=
  (∀ s t : State, s.Inv → step s = .next t → t.pending.shadow ≠ s.pending.shadow →
    s.inputs.head? = some .reset ∨
    (s.status = .running ∧ s.dstate = .immediateByte ∧ s.pending.opcodeClass = .imul)) ∧
  ∀ (s : State) (i : Instr) (v : Word) (rest : List Event), s.AtBoundary →
    s.inputs = byteEvents (encode i) ++ rest →
    ∃ t t', runSteps i.length s = .next t ∧ runSteps i.length (s.setShadow v) = .next t' ∧
      t' = t.setShadow t'.pending.shadow

/-- 10_state.md R33, R35, R50, 93_implementation_defined.md I10, I11: what a completed instruction,
or reset, leaves in the pending-instruction record is unobservable: from a boundary, whatever the
record holds, every run gives the same state but for the record itself. -/
def Obligations.LeftoverRecordIsUnobservable : Prop :=
  ∀ (s t : State) (record : Pending) (n : Nat), s.AtBoundary → runSteps n s = .next t →
    ∃ t', runSteps n { s with pending := record } = .next t' ∧ t' = { t with pending := t'.pending }

/-- 60_exceptions.md R200, R204: the block never raises `MalformedInput` and never sets a code
above 3; the code is 0 exactly while no error has ended the session. -/
def Obligations.OnlyFourErrorCodesOccur : Prop :=
  ∀ s : State, s.Inv →
    s.outputs.outErrCode ≤ 3#3 ∧ s.err.code ≠ .malformedInput ∧
    (s.outputs.outErrCode = 0#3 ↔ s.status ≠ .error)

/-- 70_reset_and_hazards.md R235: between a MOV's two immediate bytes the register holds the
half-folded value and no instruction runs: the second byte completes the MOV itself, and the
half-folded value is gone. -/
def Obligations.HalfFoldedMovIsSeenByNoInstruction : Prop :=
  ∀ (s : State) (rd : Reg) (b0 b1 : Byte) (rest : List Event), s.AtBoundary →
    s.inputs = byteEvents [movOpcode rd, b0, b1] ++ rest →
    ∃ t u, runSteps 2 s = .next t ∧ t.status = .running ∧ t.dstate = .immediateByte ∧
      t.readReg rd = foldByte (s.readReg rd) b0 ∧
      (∀ r : Reg, r ≠ rd → t.readReg r = s.readReg r) ∧
      step t = .next u ∧ u.readReg rd = imm16 b0 b1 ∧
      (∀ r : Reg, r ≠ rd → u.readReg r = s.readReg r) ∧ u.dstate = .operandByte
end

