-- ==== Sys2Proof/Laws/Fields.lean ====
section
/-! SUPPORT. The laws of the encoding's fields: register indices (R21), the addressing byte (R85),
opcode bytes (R81 to R83, R89), immediates (R87). -/

namespace Sys2Proof

@[simp] theorem Reg.ofField_field (r : Reg) : Reg.ofField r.field = r := by
  cases r <;> rfl

@[simp] theorem Reg.field_ofField (f : BitVec 3) : (Reg.ofField f).field = f := by
  revert f; decide

@[simp] theorem modField_addressingByte (reg rm : Reg) : modField (addressingByte reg rm) = 3#2 := by
  cases reg <;> cases rm <;> rfl

@[simp] theorem isRegisterForm_addressingByte (reg rm : Reg) :
    isRegisterForm (addressingByte reg rm) = true := by
  simp [isRegisterForm]

@[simp] theorem regField_addressingByte (reg rm : Reg) :
    regField (addressingByte reg rm) = reg.field := by
  cases reg <;> cases rm <;> rfl

@[simp] theorem rmField_addressingByte (reg rm : Reg) :
    rmField (addressingByte reg rm) = rm.field := by
  cases reg <;> cases rm <;> rfl

/-- With `direction_flag = 0` the destination is `rm` (R86). -/
@[simp] theorem destOf_addressingByte (reg rm : Reg) : destOf false (addressingByte reg rm) = rm := by
  simp [destOf]

/-- With `direction_flag = 0` the source is `reg` (R86). -/
@[simp] theorem srcOf_addressingByte (reg rm : Reg) : srcOf false (addressingByte reg rm) = reg := by
  simp [srcOf]

/-- A register-form byte is the addressing byte of its two registers. -/
theorem addressingByte_of_registerForm {b : Byte} (h : isRegisterForm b = true) :
    addressingByte (srcOf false b) (destOf false b) = b := by
  revert b; decide

@[simp] theorem opcodeOf_movOpcode (rd : Reg) : opcodeOf (movOpcode rd) = some (.mov rd) := by
  cases rd <;> rfl

@[simp] theorem opcodeOf_xor : opcodeOf 0x31#8 = some .xor := rfl

@[simp] theorem opcodeOf_imul : opcodeOf 0x69#8 = some .imul := rfl

/-- The bytes that select MOV (R89). -/
theorem eq_movOpcode_of_opcodeOf {b : Byte} {rd : Reg} (h : opcodeOf b = some (.mov rd)) :
    b = movOpcode rd := by
  revert b rd
  have : ∀ b : Byte, ∀ rd ∈ [Reg.ax, .cx, .dx, .bx, .sp, .bp, .si, .di],
      opcodeOf b = some (.mov rd) → b = movOpcode rd := by decide
  intro b rd
  exact this b rd (by cases rd <;> decide)

/-- The one byte that selects XOR (R89). -/
theorem eq_xor_of_opcodeOf {b : Byte} (h : opcodeOf b = some .xor) : b = 0x31#8 := by
  revert b; decide

/-- The one byte that selects IMUL (R89). -/
theorem eq_imul_of_opcodeOf {b : Byte} (h : opcodeOf b = some .imul) : b = 0x69#8 := by
  revert b; decide

@[simp] theorem directionBit_xor : directionBit 0x31#8 = false := rfl

@[simp] theorem widthBit_xor : widthBit 0x31#8 = true := rfl

@[simp] theorem directionBit_imul : directionBit 0x69#8 = false := rfl

@[simp] theorem widthBit_imul : widthBit 0x69#8 = true := rfl

@[simp] theorem imm16_immLow_immHigh (imm : Word) : imm16 (immLow imm) (immHigh imm) = imm := by
  simp only [imm16, immLow, immHigh]
  ext i hi
  simp only [BitVec.getElem_append, BitVec.getElem_extractLsb']
  split
  · rw [Nat.zero_add, BitVec.getLsbD_eq_getElem]
  · rw [← BitVec.getLsbD_eq_getElem]; congr 1; omega

@[simp] theorem immLow_imm16 (b0 b1 : Byte) : immLow (imm16 b0 b1) = b0 := by
  simp only [imm16, immLow]
  ext i hi
  rw [BitVec.getElem_extractLsb', BitVec.getLsbD_eq_getElem (by omega), BitVec.getElem_append]
  simp [hi]

@[simp] theorem immHigh_imm16 (b0 b1 : Byte) : immHigh (imm16 b0 b1) = b1 := by
  simp only [imm16, immHigh]
  ext i hi
  rw [BitVec.getElem_extractLsb', BitVec.getLsbD_eq_getElem (by omega), BitVec.getElem_append]
  simp

/-- Every instruction is well-formed: its types carry the bounds. -/
@[simp] theorem Instr.wf_true (i : Instr) : i.wf = true := by
  cases i <;> simp [Instr.wf, Instr.toAsm, AsmLine.wf, immFits] <;> omega

end Sys2Proof
end

