-- ==== Sys2Proof/Laws/Multiply.lean ====
section
/-! SUPPORT. The laws of the multiply (R172 to R179): what one pass does to the 32-bit values
`hi:lo` and `carry:shadow`, and what the loop leaves in `hi:lo`. -/

namespace Sys2Proof.Machine

theorem pair_toNat (hi lo : Word) : (pair hi lo).toNat = hi.toNat * 65536 + lo.toNat := by
  have := lo.isLt
  simp only [pair, BitVec.toNat_append]
  rw [← Nat.shiftLeft_add_eq_or_of_lt this, Nat.shiftLeft_eq]

theorem carryOut_toNat (a b : Word) :
    (BitVec.ofBool (carryOut a b)).toNat = (a.toNat + b.toNat) / 65536 := by
  have ha := a.isLt
  have hb := b.isLt
  have : carryOut a b = decide (65536 ≤ a.toNat + b.toNat) := by
    simp only [carryOut, sum17, ← BitVec.msb_eq_getLsbD_last (w := 17), BitVec.msb_eq_decide]
    simp [BitVec.toNat_add, BitVec.toNat_setWidth]
    omega
  rw [this]
  by_cases h : 65536 ≤ a.toNat + b.toNat
  · simp [h]; omega
  · simp [h]; omega

/-- R176 is a 32-bit add of `carry:shadow` into `hi:lo` when the multiplier's low bit is set. -/
theorem mulAdd_pair (w : MulWork) :
    pair (mulAdd w).hi (mulAdd w).lo =
      pair w.hi w.lo + if w.mult.getLsbD 0 then pair w.carry w.shadow else 0#32 := by
  unfold mulAdd
  split
  · apply BitVec.eq_of_toNat_eq
    have h1 := carryOut_toNat w.lo w.shadow
    have := w.lo.isLt; have := w.shadow.isLt
    simp only [pair_toNat, BitVec.toNat_add, sum17, BitVec.toNat_setWidth, h1]
    omega
  · simp

@[simp] theorem mulAdd_mult (w : MulWork) : (mulAdd w).mult = w.mult := by
  unfold mulAdd; split <;> rfl

@[simp] theorem mulAdd_shadow (w : MulWork) : (mulAdd w).shadow = w.shadow := by
  unfold mulAdd; split <;> rfl

@[simp] theorem mulAdd_carry (w : MulWork) : (mulAdd w).carry = w.carry := by
  unfold mulAdd; split <;> rfl

/-- R177 doubles `carry`, the multiplicand's top bit coming in below. -/
theorem mulShift_carry_toNat (w : MulWork) :
    (mulShift w).carry.toNat = (2 * w.carry.toNat + w.shadow.toNat / 32768) % 65536 := by
  have hand : (w.carry <<< 1) &&& (BitVec.ofBool (w.shadow.getLsbD 15)).setWidth 16 = 0#16 := by
    ext i hi
    by_cases h : i = 0
    · simp [h]
    · have : ¬ i < 1 := by omega
      simp [BitVec.getElem_setWidth, BitVec.getLsbD_of_ge _ i (by omega : 1 ≤ i)]
  have hbit : (BitVec.ofBool (w.shadow.getLsbD 15)).toNat = w.shadow.toNat / 32768 := by
    have := w.shadow.isLt
    rw [← BitVec.msb_eq_getLsbD_last (w := 16), BitVec.msb_eq_decide]
    by_cases h : 32768 ≤ w.shadow.toNat
    · simp [h]; omega
    · simp [h]; omega
  have := w.shadow.isLt
  simp only [mulShift, ← BitVec.add_eq_or_of_and_eq_zero _ _ hand, BitVec.toNat_add,
    BitVec.toNat_setWidth, hbit, BitVec.toNat_shiftLeft, Nat.shiftLeft_eq]
  omega

/-- R177 doubles `carry:shadow`. -/
theorem mulShift_pair (w : MulWork) :
    pair (mulShift w).carry (mulShift w).shadow =
      pair w.carry w.shadow + pair w.carry w.shadow := by
  apply BitVec.eq_of_toNat_eq
  have := w.shadow.isLt
  have := w.carry.isLt
  rw [pair_toNat, mulShift_carry_toNat, BitVec.toNat_add, pair_toNat]
  simp only [mulShift, BitVec.toNat_shiftLeft, Nat.shiftLeft_eq]
  omega

@[simp] theorem mulShift_hi (w : MulWork) : (mulShift w).hi = w.hi := rfl

@[simp] theorem mulShift_lo (w : MulWork) : (mulShift w).lo = w.lo := rfl

@[simp] theorem mulShift_shadow (w : MulWork) : (mulShift w).shadow = w.shadow <<< 1 := rfl

theorem mulPass_mult_toNat (w : MulWork) : (mulPass w).mult.toNat = w.mult.toNat / 2 := by
  simp [mulPass, mulShift, BitVec.toNat_ushiftRight, Nat.shiftRight_eq_div_pow]

/-- What a pass leaves in `carry:shadow`. -/
theorem mulPass_multiplicand (w : MulWork) :
    pair (mulPass w).carry (mulPass w).shadow =
      pair w.carry w.shadow + pair w.carry w.shadow := by
  rw [mulPass, mulShift_pair, mulAdd_carry, mulAdd_shadow]

/-- What a pass leaves in `hi:lo`. -/
theorem mulPass_sum (w : MulWork) :
    pair (mulPass w).hi (mulPass w).lo =
      pair w.hi w.lo + if w.mult.getLsbD 0 then pair w.carry w.shadow else 0#32 := by
  simp [mulPass, mulAdd_pair]

/-- What the accumulator will hold once the rest of the multiplier has been used up: the sum so
far and the multiplier times the multiplicand. -/
def MulWork.total (w : MulWork) : DWord :=
  pair w.hi w.lo + BitVec.ofNat 32 (w.mult.toNat * (pair w.carry w.shadow).toNat)

/-- A pass keeps the total. -/
theorem mulPass_total (w : MulWork) : (mulPass w).total = w.total := by
  have hbit : w.mult.getLsbD 0 = decide (w.mult.toNat % 2 = 1) := by
    simp [BitVec.getLsbD, Nat.testBit_zero]
  unfold MulWork.total
  rw [mulPass_sum, mulPass_multiplicand, mulPass_mult_toNat, hbit]
  generalize pair w.hi w.lo = a
  generalize hp : pair w.carry w.shadow = p
  generalize hm : w.mult.toNat = m
  obtain ⟨q, hq⟩ : ∃ q, m / 2 = q := ⟨_, rfl⟩
  apply BitVec.eq_of_toNat_eq
  by_cases h : m % 2 = 1
  · have hm' : m = 2 * q + 1 := by omega
    subst hm'
    simp only [h, decide_true, if_true, BitVec.toNat_add, BitVec.toNat_ofNat, hq]
    rw [Nat.mul_mod, Nat.mod_mod, ← Nat.mul_mod]
    have : (2 * q + 1) * p.toNat = q * (p.toNat + p.toNat) + p.toNat := by ring
    rw [this]
    omega
  · have hm' : m = 2 * q := by omega
    subst hm'
    simp only [h, decide_false, BitVec.toNat_add, BitVec.toNat_ofNat, hq]
    rw [Nat.mul_mod, Nat.mod_mod, ← Nat.mul_mod]
    have : 2 * q * p.toNat = q * (p.toNat + p.toNat) := by ring
    rw [this]
    simp

/-- The loop ends with its total in `hi:lo`, given fuel for the multiplier's bits. -/
theorem mulLoop_sum (fuel : Nat) (w : MulWork) (h : w.mult.toNat < 2 ^ fuel) :
    pair (mulLoop fuel w).hi (mulLoop fuel w).lo = w.total := by
  induction fuel generalizing w with
  | zero =>
    have : w.mult.toNat = 0 := by omega
    simp [mulLoop, MulWork.total, this]
  | succ n ih =>
    by_cases hg : mulGoesOn w = true
    · rw [mulLoop, if_pos hg, ih _ (by rw [mulPass_mult_toNat]; omega), mulPass_total]
    · rw [mulLoop, if_neg hg]
      have : w.mult.toNat = 0 ∨ (pair w.carry w.shadow).toNat = 0 := by
        by_cases h1 : w.mult = 0#16
        · exact .inl (by simp [h1])
        · right
          have : pair w.carry w.shadow = 0#32 := by simpa [mulGoesOn, h1] using hg
          simp [this]
      rcases this with h0 | h0 <;> simp [MulWork.total, h0]

/-- The loop's `hi:lo` is the product of the two unsigned magnitudes. -/
theorem mulUnsigned_sum (m s : Word) :
    pair (mulUnsigned m s).hi (mulUnsigned m s).lo = BitVec.ofNat 32 (m.toNat * s.toNat) := by
  have := m.isLt
  rw [mulUnsigned, mulLoop_sum _ _ (by simpa [mulStart, mulFuel] using this)]
  have h0 : pair (0#16) (0#16) = 0#32 := rfl
  simp [MulWork.total, mulStart, pair_toNat, h0]

end Sys2Proof.Machine
end

