-- ==== Sys2Proof/Laws/PerInstr.lean ====
section
/-! SUPPORT. Laws made per instruction. LengthFromOpcode: an instruction is well-formed, and its
length is known from its opcode byte alone (R92). -/

namespace Sys2Proof.Laws.LengthFromOpcode

/-- R80, R92: the first byte of the encoding is an opcode whose format has the instruction's
length, and the length is 2, 3 or 4 bytes. -/
def Statement (i : Instr) : Prop :=
  i.wf = true ∧ 2 ≤ i.length ∧ i.length ≤ 4 ∧
    ((encode i).head?.bind opcodeOf).map Opcode.length = some i.length

theorem xor (rd rs : Reg) : Statement (.xor rd rs) := by
  simp [Statement, Instr.length, encode, Opcode.length]

theorem mov (rd : Reg) (imm : Word) : Statement (.mov rd imm) := by
  simp [Statement, Instr.length, encode, Opcode.length]

theorem imul (rh rl : Reg) (imm : Word) : Statement (.imul rh rl imm) := by
  simp [Statement, Instr.length, encode, Opcode.length]

end Sys2Proof.Laws.LengthFromOpcode
end

