-- ==== Sys2Proof/Laws/State.lean ====
section
/-! SUPPORT. One lemma per field per update of State: each true by unfolding, tagged simp, so that no
later proof unfolds a record update. -/

namespace Sys2Proof.Machine.State

/-! ### writeReg -/

@[simp] theorem writeReg_regs (s : State) (r : Reg) (v : Word) :
    (s.writeReg r v).regs = s.regs.set r v := rfl
@[simp] theorem writeReg_dstate (s : State) (r : Reg) (v : Word) :
    (s.writeReg r v).dstate = s.dstate := rfl
@[simp] theorem writeReg_pending (s : State) (r : Reg) (v : Word) :
    (s.writeReg r v).pending = s.pending := rfl
@[simp] theorem writeReg_pos (s : State) (r : Reg) (v : Word) : (s.writeReg r v).pos = s.pos := rfl
@[simp] theorem writeReg_status (s : State) (r : Reg) (v : Word) :
    (s.writeReg r v).status = s.status := rfl
@[simp] theorem writeReg_err (s : State) (r : Reg) (v : Word) : (s.writeReg r v).err = s.err := rfl
@[simp] theorem writeReg_inputs (s : State) (r : Reg) (v : Word) :
    (s.writeReg r v).inputs = s.inputs := rfl
@[simp] theorem writeReg_config (s : State) (r : Reg) (v : Word) :
    (s.writeReg r v).config = s.config := rfl
@[simp] theorem writeReg_draws (s : State) (r : Reg) (v : Word) :
    (s.writeReg r v).draws = s.draws := rfl

/-! ### setShadow -/

@[simp] theorem setShadow_regs (s : State) (v : Word) : (s.setShadow v).regs = s.regs := rfl
@[simp] theorem setShadow_dstate (s : State) (v : Word) : (s.setShadow v).dstate = s.dstate := rfl
@[simp] theorem setShadow_pending (s : State) (v : Word) :
    (s.setShadow v).pending = { s.pending with shadow := v } := rfl
@[simp] theorem setShadow_pos (s : State) (v : Word) : (s.setShadow v).pos = s.pos := rfl
@[simp] theorem setShadow_status (s : State) (v : Word) : (s.setShadow v).status = s.status := rfl
@[simp] theorem setShadow_err (s : State) (v : Word) : (s.setShadow v).err = s.err := rfl
@[simp] theorem setShadow_inputs (s : State) (v : Word) : (s.setShadow v).inputs = s.inputs := rfl
@[simp] theorem setShadow_config (s : State) (v : Word) : (s.setShadow v).config = s.config := rfl
@[simp] theorem setShadow_draws (s : State) (v : Word) : (s.setShadow v).draws = s.draws := rfl

/-! ### countDraw -/

@[simp] theorem countDraw_regs (s : State) : (s.countDraw).regs = s.regs := rfl
@[simp] theorem countDraw_dstate (s : State) : (s.countDraw).dstate = s.dstate := rfl
@[simp] theorem countDraw_pending (s : State) : (s.countDraw).pending = s.pending := rfl
@[simp] theorem countDraw_pos (s : State) : (s.countDraw).pos = s.pos := rfl
@[simp] theorem countDraw_status (s : State) : (s.countDraw).status = s.status := rfl
@[simp] theorem countDraw_err (s : State) : (s.countDraw).err = s.err := rfl
@[simp] theorem countDraw_inputs (s : State) : (s.countDraw).inputs = s.inputs := rfl
@[simp] theorem countDraw_config (s : State) : (s.countDraw).config = s.config := rfl
@[simp] theorem countDraw_draws (s : State) : (s.countDraw).draws = s.draws + 1 := rfl

/-! ### advancePos -/

@[simp] theorem advancePos_regs (s : State) : (s.advancePos).regs = s.regs := rfl
@[simp] theorem advancePos_dstate (s : State) : (s.advancePos).dstate = s.dstate := rfl
@[simp] theorem advancePos_pending (s : State) : (s.advancePos).pending = s.pending := rfl
@[simp] theorem advancePos_pos (s : State) : (s.advancePos).pos = s.pos + 1 := rfl
@[simp] theorem advancePos_status (s : State) : (s.advancePos).status = s.status := rfl
@[simp] theorem advancePos_err (s : State) : (s.advancePos).err = s.err := rfl
@[simp] theorem advancePos_inputs (s : State) : (s.advancePos).inputs = s.inputs := rfl
@[simp] theorem advancePos_config (s : State) : (s.advancePos).config = s.config := rfl
@[simp] theorem advancePos_draws (s : State) : (s.advancePos).draws = s.draws := rfl

/-! ### raise -/

@[simp] theorem raise_regs (s : State) (e : ErrCode) (q : Nat) (c : Byte) :
    (s.raise e q c).regs = s.regs := rfl
@[simp] theorem raise_dstate (s : State) (e : ErrCode) (q : Nat) (c : Byte) :
    (s.raise e q c).dstate = s.dstate := rfl
@[simp] theorem raise_pending (s : State) (e : ErrCode) (q : Nat) (c : Byte) :
    (s.raise e q c).pending = s.pending := rfl
@[simp] theorem raise_pos (s : State) (e : ErrCode) (q : Nat) (c : Byte) :
    (s.raise e q c).pos = s.pos := rfl
@[simp] theorem raise_status (s : State) (e : ErrCode) (q : Nat) (c : Byte) :
    (s.raise e q c).status = .error := rfl
@[simp] theorem raise_err (s : State) (e : ErrCode) (q : Nat) (c : Byte) :
    (s.raise e q c).err = { code := e, pos := q, byte := c } := rfl
@[simp] theorem raise_inputs (s : State) (e : ErrCode) (q : Nat) (c : Byte) :
    (s.raise e q c).inputs = s.inputs := rfl
@[simp] theorem raise_config (s : State) (e : ErrCode) (q : Nat) (c : Byte) :
    (s.raise e q c).config = s.config := rfl
@[simp] theorem raise_draws (s : State) (e : ErrCode) (q : Nat) (c : Byte) :
    (s.raise e q c).draws = s.draws := rfl

/-! ### endInstruction -/

@[simp] theorem endInstruction_regs (s : State) : (s.endInstruction).regs = s.regs := rfl
@[simp] theorem endInstruction_dstate (s : State) : (s.endInstruction).dstate = .operandByte := rfl
@[simp] theorem endInstruction_pending (s : State) :
    (s.endInstruction).pending = { s.pending with opcodeClass := .none } := rfl
@[simp] theorem endInstruction_pos (s : State) : (s.endInstruction).pos = s.pos := rfl
@[simp] theorem endInstruction_status (s : State) : (s.endInstruction).status = s.status := rfl
@[simp] theorem endInstruction_err (s : State) : (s.endInstruction).err = s.err := rfl
@[simp] theorem endInstruction_inputs (s : State) : (s.endInstruction).inputs = s.inputs := rfl
@[simp] theorem endInstruction_config (s : State) : (s.endInstruction).config = s.config := rfl
@[simp] theorem endInstruction_draws (s : State) : (s.endInstruction).draws = s.draws := rfl

/-! ### setExpect -/

@[simp] theorem setExpect_regs (s : State) (n : BitVec 2) : (s.setExpect n).regs = s.regs := rfl
@[simp] theorem setExpect_dstate (s : State) (n : BitVec 2) :
    (s.setExpect n).dstate = s.dstate := rfl
@[simp] theorem setExpect_pending (s : State) (n : BitVec 2) :
    (s.setExpect n).pending = { s.pending with expect := n } := rfl
@[simp] theorem setExpect_pos (s : State) (n : BitVec 2) : (s.setExpect n).pos = s.pos := rfl
@[simp] theorem setExpect_status (s : State) (n : BitVec 2) :
    (s.setExpect n).status = s.status := rfl
@[simp] theorem setExpect_err (s : State) (n : BitVec 2) : (s.setExpect n).err = s.err := rfl
@[simp] theorem setExpect_inputs (s : State) (n : BitVec 2) :
    (s.setExpect n).inputs = s.inputs := rfl
@[simp] theorem setExpect_config (s : State) (n : BitVec 2) :
    (s.setExpect n).config = s.config := rfl
@[simp] theorem setExpect_draws (s : State) (n : BitVec 2) : (s.setExpect n).draws = s.draws := rfl

/-! ### countDown -/

@[simp] theorem countDown_regs (s : State) : (s.countDown).regs = s.regs := rfl
@[simp] theorem countDown_dstate (s : State) : (s.countDown).dstate = s.dstate := rfl
@[simp] theorem countDown_pending (s : State) :
    (s.countDown).pending = { s.pending with expect := s.pending.expect - 1#2 } := rfl
@[simp] theorem countDown_pos (s : State) : (s.countDown).pos = s.pos := rfl
@[simp] theorem countDown_status (s : State) : (s.countDown).status = s.status := rfl
@[simp] theorem countDown_err (s : State) : (s.countDown).err = s.err := rfl
@[simp] theorem countDown_inputs (s : State) : (s.countDown).inputs = s.inputs := rfl
@[simp] theorem countDown_config (s : State) : (s.countDown).config = s.config := rfl
@[simp] theorem countDown_draws (s : State) : (s.countDown).draws = s.draws := rfl

/-! ### assignOperands -/

@[simp] theorem assignOperands_regs (s : State) (b : Byte) :
    (s.assignOperands b).regs = s.regs := rfl
@[simp] theorem assignOperands_dstate (s : State) (b : Byte) :
    (s.assignOperands b).dstate = s.dstate := rfl
@[simp] theorem assignOperands_pending (s : State) (b : Byte) :
    (s.assignOperands b).pending = { s.pending with destReg := destOf s.pending.directionFlag b, srcReg := srcOf s.pending.directionFlag b } := rfl
@[simp] theorem assignOperands_pos (s : State) (b : Byte) : (s.assignOperands b).pos = s.pos := rfl
@[simp] theorem assignOperands_status (s : State) (b : Byte) :
    (s.assignOperands b).status = s.status := rfl
@[simp] theorem assignOperands_err (s : State) (b : Byte) : (s.assignOperands b).err = s.err := rfl
@[simp] theorem assignOperands_inputs (s : State) (b : Byte) :
    (s.assignOperands b).inputs = s.inputs := rfl
@[simp] theorem assignOperands_config (s : State) (b : Byte) :
    (s.assignOperands b).config = s.config := rfl
@[simp] theorem assignOperands_draws (s : State) (b : Byte) :
    (s.assignOperands b).draws = s.draws := rfl

/-! ### present -/

@[simp] theorem present_regs (s : State) (e : Event) : (s.present e).regs = s.regs := rfl
@[simp] theorem present_dstate (s : State) (e : Event) : (s.present e).dstate = s.dstate := rfl
@[simp] theorem present_pending (s : State) (e : Event) : (s.present e).pending = s.pending := rfl
@[simp] theorem present_pos (s : State) (e : Event) : (s.present e).pos = s.pos := rfl
@[simp] theorem present_status (s : State) (e : Event) : (s.present e).status = s.status := rfl
@[simp] theorem present_err (s : State) (e : Event) : (s.present e).err = s.err := rfl
@[simp] theorem present_inputs (s : State) (e : Event) : (s.present e).inputs = e :: s.inputs := rfl
@[simp] theorem present_config (s : State) (e : Event) : (s.present e).config = s.config := rfl
@[simp] theorem present_draws (s : State) (e : Event) : (s.present e).draws = s.draws := rfl

/-! ### atBoundary -/

@[simp] theorem atBoundary_regs (s : State) : (s.atBoundary).regs = s.regs := rfl
@[simp] theorem atBoundary_dstate (s : State) : (s.atBoundary).dstate = .operandByte := rfl
@[simp] theorem atBoundary_pending (s : State) : (s.atBoundary).pending = s.pending := rfl
@[simp] theorem atBoundary_pos (s : State) : (s.atBoundary).pos = s.pos := rfl
@[simp] theorem atBoundary_status (s : State) : (s.atBoundary).status = .running := rfl
@[simp] theorem atBoundary_err (s : State) : (s.atBoundary).err = s.err := rfl
@[simp] theorem atBoundary_inputs (s : State) : (s.atBoundary).inputs = s.inputs := rfl
@[simp] theorem atBoundary_config (s : State) : (s.atBoundary).config = s.config := rfl
@[simp] theorem atBoundary_draws (s : State) : (s.atBoundary).draws = s.draws := rfl

end Sys2Proof.Machine.State
end

