-- ==== Sys2Proof/Laws/Registers.lean ====
section
/-! SUPPORT. The laws of the register file (R20 to R22): a read after a write to the same register
gives the value written, and a write leaves every other register alone. -/

namespace Sys2Proof.Machine

@[simp] theorem RegFile.get_set_same (f : RegFile) (r : Reg) (v : Word) : (f.set r v).get r = v := by
  cases r <;> rfl

@[simp] theorem RegFile.get_set_other (f : RegFile) {r q : Reg} (h : q ≠ r) (v : Word) :
    (f.set r v).get q = f.get q := by
  cases r <;> cases q <;> first | rfl | exact absurd rfl h

theorem RegFile.get_set (f : RegFile) (r q : Reg) (v : Word) :
    (f.set r v).get q = if q = r then v else f.get q := by
  by_cases h : q = r
  · subst h; simp
  · simp [h]

@[simp] theorem RegFile.set_set (f : RegFile) (r : Reg) (v w : Word) :
    (f.set r v).set r w = f.set r w := by
  cases r <;> rfl

@[simp] theorem RegFile.set_get (f : RegFile) (r : Reg) : f.set r (f.get r) = f := by
  cases r <;> rfl

theorem RegFile.set_comm (f : RegFile) {r q : Reg} (h : r ≠ q) (v w : Word) :
    (f.set r v).set q w = (f.set q w).set r v := by
  cases r <;> cases q <;> first | rfl | exact absurd rfl h

/-- Two register files that read alike are the same. -/
theorem RegFile.ext_get {f g : RegFile} (h : ∀ r, f.get r = g.get r) : f = g := by
  obtain ⟨⟩ := f
  obtain ⟨⟩ := g
  have := h .ax; have := h .cx; have := h .dx; have := h .bx
  have := h .sp; have := h .bp; have := h .si; have := h .di
  simp_all [RegFile.get]

theorem State.readReg_writeReg (s : State) (r q : Reg) (v : Word) :
    (s.writeReg r v).readReg q = if q = r then v else s.readReg q :=
  RegFile.get_set s.regs r q v

@[simp] theorem State.readReg_writeReg_same (s : State) (r : Reg) (v : Word) :
    (s.writeReg r v).readReg r = v :=
  RegFile.get_set_same s.regs r v

@[simp] theorem State.readReg_writeReg_other (s : State) {r q : Reg} (h : q ≠ r) (v : Word) :
    (s.writeReg r v).readReg q = s.readReg q :=
  RegFile.get_set_other s.regs h v

@[simp] theorem State.writeReg_writeReg (s : State) (r : Reg) (v w : Word) :
    (s.writeReg r v).writeReg r w = s.writeReg r w := by
  simp [State.writeReg]

@[simp] theorem State.writeReg_readReg (s : State) (r : Reg) : s.writeReg r (s.readReg r) = s := by
  simp [State.writeReg, State.readReg]

@[simp] theorem State.readReg_setShadow (s : State) (r : Reg) (v : Word) :
    (s.setShadow v).readReg r = s.readReg r := rfl

@[simp] theorem State.readReg_setExpect (s : State) (r : Reg) (n : BitVec 2) :
    (s.setExpect n).readReg r = s.readReg r := rfl

@[simp] theorem State.readReg_countDraw (s : State) (r : Reg) :
    s.countDraw.readReg r = s.readReg r := rfl

@[simp] theorem State.readReg_advancePos (s : State) (r : Reg) :
    s.advancePos.readReg r = s.readReg r := rfl

@[simp] theorem State.readReg_endInstruction (s : State) (r : Reg) :
    s.endInstruction.readReg r = s.readReg r := rfl

end Sys2Proof.Machine
end

