-- ==== Sys2Proof/Laws/Step.lean ====
section
/-! SUPPORT. What the executor, one byte, one event and one step can do: one lemma per operation,
saying once everything it answers. -/

namespace Sys2Proof.Machine

@[simp] theorem thenNext_next (s : State) (f : State → State) :
    thenNext (.next s) f = .next (f s) := rfl

theorem thenNext_eq_next {o : Result} {f : State → State} {t : State} (h : thenNext o f = .next t) :
    ∃ s, o = .next s ∧ t = f s := by
  cases o with
  | next s => exact ⟨s, rfl, by simpa [thenNext] using h.symm⟩
  | fault r => simp [thenNext] at h
  | refused r => simp [thenNext] at h

/-! ### The executor -/

@[simp] theorem exec_xor (rd rs : Reg) (s : State) :
    exec (.xor rd rs) s = .next (s.writeReg rd (s.readReg rd ^^^ s.readReg rs)) := rfl

@[simp] theorem exec_mov (rd : Reg) (imm : Word) (s : State) :
    exec (.mov rd imm) s = .next (s.writeReg rd imm) := rfl

/-- The state that an IMUL leaves. -/
def State.imulled (s : State) (rh rl : Reg) (imm : Word) : State :=
  ((s.setShadow (imul16 (s.readReg rl) imm).shadowOut).writeHalves rh rl
    (imul16 (s.readReg rl) imm).hi (imul16 (s.readReg rl) imm).lo).settleSameReg rh rl

theorem exec_imul (rh rl : Reg) (imm : Word) (s : State) :
    exec (.imul rh rl imm) s = .next (s.imulled rh rl imm) := rfl

/-- One register for both halves under `draw`: it holds the next free value. -/
theorem settleSameReg_of_draw (s : State) {rh rl : Reg} (h : rh = rl)
    (hc : s.config.imulSameReg = .draw) :
    s.settleSameReg rh rl = (s.writeReg rl (Config.freeWord s.draws)).countDraw := by
  simp [State.settleSameReg, h, hc]

/-- In every other case nothing more is written. -/
theorem settleSameReg_of_not (s : State) {rh rl : Reg}
    (h : ¬(rh = rl ∧ s.config.imulSameReg = .draw)) : s.settleSameReg rh rl = s := by
  simp [State.settleSameReg, h]

/-- The registers an IMUL leaves (R143, D13). -/
theorem imulled_regs (s : State) (rh rl : Reg) (imm : Word) :
    (s.imulled rh rl imm).regs =
      if rh = rl ∧ s.config.imulSameReg = .draw then
        s.regs.set rl (Config.freeWord s.draws)
      else
        (s.regs.set rl (imul16 (s.regs.get rl) imm).lo).set rh (imul16 (s.regs.get rl) imm).hi := by
  by_cases h : rh = rl ∧ s.config.imulSameReg = .draw
  · rw [if_pos h, State.imulled, settleSameReg_of_draw _ h.1 (by exact h.2)]
    obtain ⟨rfl, -⟩ := h
    simp [State.writeHalves]
  · rw [if_neg h, State.imulled, settleSameReg_of_not _ (by exact h)]
    rfl

/-- The count of free values an IMUL leaves (D13). -/
theorem imulled_draws (s : State) (rh rl : Reg) (imm : Word) :
    (s.imulled rh rl imm).draws =
      if rh = rl ∧ s.config.imulSameReg = .draw then s.draws + 1 else s.draws := by
  by_cases h : rh = rl ∧ s.config.imulSameReg = .draw
  · rw [if_pos h, State.imulled, settleSameReg_of_draw _ h.1 (by exact h.2)]
    rfl
  · rw [if_neg h, State.imulled, settleSameReg_of_not _ (by exact h)]
    rfl

/-- The pending record an IMUL leaves: `shadow` alone changes (R184). -/
theorem imulled_pending (s : State) (rh rl : Reg) (imm : Word) :
    (s.imulled rh rl imm).pending =
      { s.pending with shadow := (imul16 (s.regs.get rl) imm).shadowOut } := by
  unfold State.imulled State.settleSameReg
  split <;> rfl

/-- The executor always answers a next state: "The executor raises no error" (R140). -/
theorem exec_next (i : Instr) (s : State) : ∃ t, exec i s = .next t := by
  cases i with
  | xor rd rs => exact ⟨_, rfl⟩
  | mov rd imm => exact ⟨_, rfl⟩
  | imul rh rl imm => exact ⟨_, rfl⟩

/-- Where the halves go to two registers, no free value is drawn. -/
theorem settleSameReg_of_ne (s : State) {rh rl : Reg} (h : rh ≠ rl) : s.settleSameReg rh rl = s := by
  simp [State.settleSameReg, h]

/-- Under `high_wins` no free value is drawn. -/
theorem settleSameReg_of_highWins (s : State) (rh rl : Reg) (h : s.config.imulSameReg = .highWins) :
    s.settleSameReg rh rl = s := by
  simp [State.settleSameReg, h]

/-- What no instruction writes: everything but the registers, `shadow` and the count of draws. -/
theorem exec_frame {i : Instr} {s t : State} (h : exec i s = .next t) :
    t = { s with
      regs := t.regs
      pending := { s.pending with shadow := t.pending.shadow }
      draws := t.draws } := by
  cases i with
  | xor rd rs => cases h; rfl
  | mov rd imm => cases h; rfl
  | imul rh rl imm =>
    rw [exec_imul] at h
    cases h
    simp only [State.imulled, State.settleSameReg]
    split <;> rfl

/-! ### Completion -/

theorem complete_of_descriptor {s : State} {i : Instr} (h : s.descriptor = some i) :
    s.complete = thenNext (exec i s) State.endInstruction := by
  simp [State.complete, h]

theorem complete_next {s : State} {i : Instr} (h : s.descriptor = some i) :
    ∃ t, exec i s = .next t ∧ s.complete = .next t.endInstruction := by
  obtain ⟨t, ht⟩ := exec_next i s
  exact ⟨t, ht, by simp [complete_of_descriptor h, ht]⟩

theorem complete_eq_next {s t : State} (h : s.complete = .next t) :
    ∃ i u, s.descriptor = some i ∧ exec i s = .next u ∧ t = u.endInstruction := by
  unfold State.complete at h
  split at h
  · next i hi =>
    obtain ⟨u, hu, rfl⟩ := thenNext_eq_next h
    exact ⟨i, u, hi, hu, rfl⟩
  · cases h

theorem completeIfLast_of_zero {s : State} (h : s.pending.expect = 0#2) :
    s.completeIfLast = s.complete := by
  simp [State.completeIfLast, h]

theorem completeIfLast_of_more {s : State} (h : s.pending.expect ≠ 0#2) :
    s.completeIfLast = .next { s with dstate := .immediateByte } := by
  simp [State.completeIfLast, h]

theorem completeIfLast_eq_next {s t : State} (h : s.completeIfLast = .next t) :
    (s.pending.expect ≠ 0#2 ∧ t = { s with dstate := .immediateByte }) ∨
      (s.pending.expect = 0#2 ∧
        ∃ i u, s.descriptor = some i ∧ exec i s = .next u ∧ t = u.endInstruction) := by
  unfold State.completeIfLast at h
  split at h
  · exact .inr ⟨‹_›, complete_eq_next h⟩
  · exact .inl ⟨‹_›, by cases h; rfl⟩

/-! ### One step, by the event it handles -/

theorem step_idle {s : State} (h : s.inputs = []) : step s = .next s := by
  simp [step, h]

theorem step_event {s : State} {e : Event} {rest : List Event} (h : s.inputs = e :: rest) :
    step s = ({ s with inputs := rest } : State).takeEvent e := by
  simp [step, h]

theorem step_byte_running {s : State} {b : Byte} {rest : List Event} (hs : s.status = .running)
    (h : s.inputs = .byte b :: rest) :
    step s = ({ s with inputs := rest, pos := s.pos + 1 } : State).takeRunning s.pos b := by
  simp [step, h, State.takeEvent, State.takeByte, hs, State.advancePos]

theorem step_end {s : State} {rest : List Event} (h : s.inputs = .endOfStream :: rest) :
    step s = .next ({ s with inputs := rest } : State).endStream := by
  simp [step, h, State.takeEvent]

theorem step_reset {s : State} {rest : List Event} (h : s.inputs = .reset :: rest) :
    step s = .next ({ s with inputs := rest } : State).resetBlock := by
  simp [step, h, State.takeEvent]

theorem step_terminal {s : State} {e : Event} {rest : List Event} (hs : s.status ≠ .running)
    (he : e ≠ .reset) (h : s.inputs = e :: rest) : step s = .next { s with inputs := rest } := by
  cases e with
  | byte b =>
    cases hst : s.status <;> simp_all [step, State.takeEvent, State.takeByte]
  | endOfStream =>
    cases hst : s.status <;> simp_all [step, State.takeEvent, State.endStream]
  | reset => exact absurd rfl he

theorem takeRunning_operandByte {s : State} (h : s.dstate = .operandByte) (p : Nat) (b : Byte) :
    s.takeRunning p b = .next (s.takeOpcode p b) := by
  simp [State.takeRunning, h]

theorem takeRunning_registerForm {s : State} (h : s.dstate = .addressingByte) (p : Nat) {b : Byte}
    (hb : isRegisterForm b = true) : s.takeRunning p b = (s.addressed b).completeIfLast := by
  simp [State.takeRunning, h, State.takeAddressing, hb]

theorem takeRunning_memoryForm {s : State} (h : s.dstate = .addressingByte) (p : Nat) {b : Byte}
    (hb : isRegisterForm b = false) :
    s.takeRunning p b = .next (s.raise .unsupportedAddressingMode p b) := by
  simp [State.takeRunning, h, State.takeAddressing, hb]

theorem takeRunning_immediateByte {s : State} (h : s.dstate = .immediateByte) (p : Nat) (b : Byte) :
    s.takeRunning p b = (s.immediated b).completeIfLast := by
  simp [State.takeRunning, h, State.takeImmediate]

/-! ### What an operand byte leaves alone -/

@[simp] theorem addressed_regs (s : State) (b : Byte) : (s.addressed b).regs = s.regs := rfl
@[simp] theorem addressed_dstate (s : State) (b : Byte) : (s.addressed b).dstate = s.dstate := rfl
@[simp] theorem addressed_pending (s : State) (b : Byte) :
    (s.addressed b).pending = { s.pending with
      destReg := destOf s.pending.directionFlag b
      srcReg := srcOf s.pending.directionFlag b
      expect := s.pending.expect - 1#2 } := rfl
@[simp] theorem addressed_pos (s : State) (b : Byte) : (s.addressed b).pos = s.pos := rfl
@[simp] theorem addressed_status (s : State) (b : Byte) : (s.addressed b).status = s.status := rfl
@[simp] theorem addressed_err (s : State) (b : Byte) : (s.addressed b).err = s.err := rfl
@[simp] theorem addressed_inputs (s : State) (b : Byte) : (s.addressed b).inputs = s.inputs := rfl
@[simp] theorem addressed_config (s : State) (b : Byte) : (s.addressed b).config = s.config := rfl
@[simp] theorem addressed_draws (s : State) (b : Byte) : (s.addressed b).draws = s.draws := rfl

/-- R120 and R123: an immediate byte of an IMUL. -/
theorem immediated_imul {s : State} (h : s.pending.tertiary = true) (b : Byte) :
    s.immediated b = { s with pending := { s.pending with
      shadow := foldByte s.pending.shadow b
      expect := s.pending.expect - 1#2 } } := by
  simp [State.immediated, h, State.foldShadow, State.setShadow, State.countDown, State.setExpect]

/-- R121 and R123: an immediate byte of a MOV. -/
theorem immediated_mov {s : State} (h : s.pending.tertiary = false)
    (ho : s.pending.operandSizeFlag = true) (b : Byte) :
    s.immediated b = { s with
      regs := s.regs.set s.pending.destReg (foldByte (s.regs.get s.pending.destReg) b)
      pending := { s.pending with expect := s.pending.expect - 1#2 } } := by
  simp [State.immediated, h, ho, State.foldDest, State.writeReg, State.readReg, State.countDown,
    State.setExpect]

/-- What an immediate byte leaves alone, whatever row of R124 it takes. -/
theorem immediated_frame (s : State) (b : Byte) :
    s.immediated b = { s with
      regs := (s.immediated b).regs
      pending := { s.pending with
        shadow := (s.immediated b).pending.shadow
        expect := (s.immediated b).pending.expect } } := by
  unfold State.immediated
  split
  · rfl
  · split <;> rfl

/-- What an immediate byte leaves in `expect` (R122, R123). -/
theorem immediated_expect (s : State) (b : Byte) :
    (s.immediated b).pending.expect =
      if s.pending.tertiary = true ∨ s.pending.operandSizeFlag = true then s.pending.expect - 1#2
      else 0#2 := by
  unfold State.immediated
  by_cases h : s.pending.tertiary = true
  · rw [if_pos h, if_pos (.inl h)]; rfl
  · by_cases ho : s.pending.operandSizeFlag = true
    · rw [if_neg h, if_pos ho, if_pos (.inr ho)]; rfl
    · rw [if_neg h, if_neg ho, if_neg (by simp [h, ho])]; rfl

/-- Completion does not depend on what is presented after the byte. -/
theorem completedBy_inputs (s : State) (b : Byte) (events : List Event) :
    ({ s with inputs := events } : State).completedBy b ↔ s.completedBy b := by
  unfold State.completedBy State.operandTaken
  cases hd : s.dstate with
  | operandByte => simp
  | addressingByte => exact Iff.rfl
  | immediateByte => simp only [immediated_expect]; exact Iff.rfl

/-- The step of a completing byte (R125): the executor's turn, on the state that the byte left. -/
theorem step_completing {s : State} {b : Byte} {rest : List Event} (hs : s.status = .running)
    (h : s.inputs = .byte b :: rest) (hc : s.completedBy b) :
    step s = (({ s with inputs := rest } : State).operandTaken b).complete := by
  obtain ⟨h1, h2, h3⟩ := (completedBy_inputs s b rest).2 hc
  rw [step_byte_running hs h]
  cases hd : s.dstate with
  | operandByte => exact absurd hd h1
  | addressingByte =>
    simp only [State.operandTaken, hd] at h3 ⊢
    rw [takeRunning_registerForm rfl _ (h2 hd)]
    exact completeIfLast_of_zero h3
  | immediateByte =>
    simp only [State.operandTaken, hd] at h3 ⊢
    rw [takeRunning_immediateByte rfl]
    exact completeIfLast_of_zero h3

/-- Everything a step can do, when it answers a next state. -/
inductive StepCase (s t : State) : Prop where
  /-- No event is presented. -/
  | idle (h : s.inputs = []) (ht : t = s)
  /-- Done and Error ignore everything but Reset (R207). -/
  | ignored (e : Event) (rest : List Event) (h : s.inputs = e :: rest) (hs : s.status ≠ .running)
      (he : e ≠ .reset) (ht : t = { s with inputs := rest })
  /-- Reset (R230). -/
  | reset (rest : List Event) (h : s.inputs = .reset :: rest)
      (ht : t = ({ s with inputs := rest } : State).resetBlock)
  /-- End while running (R203, R210). -/
  | ended (rest : List Event) (h : s.inputs = .endOfStream :: rest) (hs : s.status = .running)
      (ht : t = ({ s with inputs := rest } : State).endRunning)
  /-- An opcode byte (R112 to R115). -/
  | opcode (b : Byte) (rest : List Event) (h : s.inputs = .byte b :: rest)
      (hs : s.status = .running) (hd : s.dstate = .operandByte)
      (ht : t = ({ s with inputs := rest, pos := s.pos + 1 } : State).takeOpcode s.pos b)
  /-- A memory-form addressing byte (R117). -/
  | memoryForm (b : Byte) (rest : List Event) (h : s.inputs = .byte b :: rest)
      (hs : s.status = .running) (hd : s.dstate = .addressingByte)
      (hb : isRegisterForm b = false)
      (ht : t = ({ s with inputs := rest, pos := s.pos + 1 } : State).raise
        .unsupportedAddressingMode s.pos b)
  /-- An operand byte after which more bytes are expected (R119, R123): `u` is the counted state. -/
  | goesOn (b : Byte) (rest : List Event) (u : State) (h : s.inputs = .byte b :: rest)
      (hs : s.status = .running)
      (hu : (s.dstate = .addressingByte ∧ isRegisterForm b = true ∧
          u = ({ s with inputs := rest, pos := s.pos + 1 } : State).addressed b) ∨
        (s.dstate = .immediateByte ∧
          u = ({ s with inputs := rest, pos := s.pos + 1 } : State).immediated b))
      (hx : u.pending.expect ≠ 0#2) (ht : t = { u with dstate := .immediateByte })
  /-- An operand byte that completes instruction `i` (R125): `u` is the counted state. -/
  | completes (b : Byte) (rest : List Event) (u v : State) (i : Instr)
      (h : s.inputs = .byte b :: rest) (hs : s.status = .running)
      (hu : (s.dstate = .addressingByte ∧ isRegisterForm b = true ∧
          u = ({ s with inputs := rest, pos := s.pos + 1 } : State).addressed b) ∨
        (s.dstate = .immediateByte ∧
          u = ({ s with inputs := rest, pos := s.pos + 1 } : State).immediated b))
      (hx : u.pending.expect = 0#2) (hi : u.descriptor = some i) (hv : exec i u = .next v)
      (ht : t = v.endInstruction)

theorem step_cases {s t : State} (h : step s = .next t) : StepCase s t := by
  cases hin : s.inputs with
  | nil =>
    rw [step_idle hin] at h
    exact .idle hin (by cases h; rfl)
  | cons e rest =>
    by_cases hr : e = .reset
    · subst hr
      rw [step_reset hin] at h
      exact .reset rest hin (by cases h; rfl)
    by_cases hs : s.status = .running
    · cases e with
      | reset => exact absurd rfl hr
      | endOfStream =>
        rw [step_end hin] at h
        refine .ended rest hin hs ?_
        cases h
        simp [State.endStream, hs]
      | byte b =>
        rw [step_byte_running hs hin] at h
        cases hd : s.dstate with
        | operandByte =>
          rw [takeRunning_operandByte (by exact hd)] at h
          exact .opcode b rest hin hs hd (Host.Outcome.next.inj h).symm
        | addressingByte =>
          cases hb : isRegisterForm b with
          | true =>
            rw [takeRunning_registerForm (by exact hd) _ hb] at h
            rcases completeIfLast_eq_next h with ⟨hx, ht⟩ | ⟨hx, i, v, hi, hv, ht⟩
            · exact .goesOn b rest _ hin hs (.inl ⟨hd, hb, rfl⟩) hx ht
            · exact .completes b rest _ v i hin hs (.inl ⟨hd, hb, rfl⟩) hx hi hv ht
          | false =>
            rw [takeRunning_memoryForm (by exact hd) _ hb] at h
            exact .memoryForm b rest hin hs hd hb (Host.Outcome.next.inj h).symm
        | immediateByte =>
          rw [takeRunning_immediateByte (by exact hd)] at h
          rcases completeIfLast_eq_next h with ⟨hx, ht⟩ | ⟨hx, i, v, hi, hv, ht⟩
          · exact .goesOn b rest _ hin hs (.inr ⟨hd, rfl⟩) hx ht
          · exact .completes b rest _ v i hin hs (.inr ⟨hd, rfl⟩) hx hi hv ht
    · rw [step_terminal hs hr hin] at h
      exact .ignored e rest hin hs hr (by cases h; rfl)

/-! ### Runs -/

@[simp] theorem runSteps_zero (s : State) : runSteps 0 s = .next s := rfl

theorem runSteps_succ {s t : State} (n : Nat) (h : step s = .next t) :
    runSteps (n + 1) s = runSteps n t := by
  simp [runSteps, h]

theorem runSteps_add {s t : State} (m n : Nat) (h : runSteps m s = .next t) :
    runSteps (m + n) s = runSteps n t := by
  induction m generalizing s with
  | zero => cases h; simp
  | succ k ih =>
    rw [Nat.succ_add]
    cases hs : step s with
    | next u =>
      rw [runSteps_succ _ hs] at h ⊢
      exact ih h
    | fault r => simp [runSteps, hs] at h
    | refused r => simp [runSteps, hs] at h

end Sys2Proof.Machine
end

