-- ==== Sys2Proof/Tests/Slice0.lean ====
section
/-! SUPPORT. The model's own tests. Expected values come from spec/95_test_vectors.md (the vector is
named) or are worked out from the rule named. First the decoder on words written out bit by bit,
then well-formedness, then single steps, then one witness for every obligation with hypotheses. -/

namespace Sys2Proof.Tests

open Sys2Proof.Machine

/-- The reset state with events presented. -/
def fed (events : List Event) : State := { State.reset with inputs := events }

/-- The reset state with AX and DX given and events presented. -/
def withAxDx (ax dx : Word) (events : List Event) : State :=
  ((fed events).writeReg .ax ax).writeReg .dx dx

/-- A MOV to AX with one immediate byte taken (E1, row pos 3), events presented. -/
def inMov (events : List Event) : State :=
  { fed events with
    dstate := .immediateByte
    pos := 2
    pending := { Pending.reset with opcodeClass := .mov, operandSizeFlag := true, expect := 1#2 } }

/-- `IMUL dx:ax` with one immediate byte taken (E1, row pos 7), events presented. -/
def inImul (ax : Word) (events : List Event) : State :=
  { withAxDx ax 0#16 events with
    dstate := .immediateByte
    pos := 8
    pending :=
      { opcodeClass := .imul, operandSizeFlag := true, directionFlag := false, destReg := .ax,
        srcReg := .dx, shadow := 0x7800#16, expect := 1#2, tertiary := true } }

/-- An XOR waiting for its addressing byte (E1, row pos 0), events presented. -/
def inXor (events : List Event) : State :=
  { fed events with
    dstate := .addressingByte
    pos := 1
    pending := { Pending.reset with opcodeClass := .xor, operandSizeFlag := true, expect := 1#2 } }

/-- A session that has ended in Error (V-DEC-9, after `ff`), events presented. -/
def inError (events : List Event) : State :=
  { fed events with
    status := .error
    pos := 1
    err := { code := .unsupportedOpcode, pos := 0, byte := 0xFF#8 } }

/-- A session that ended at a boundary, after no bytes (R210), events presented. -/
def inDone (events : List Event) : State := { fed events with status := .done }

/-! ### Decoding (R81 to R86, E1, L2) -/

/-- R82 and R85, E1: `31 d2`. -/
theorem test_decode_xor :
    decode [0b00110001#8, 0b11010010#8] = .instr (.xor .dx .dx) [] := by decide

/-- V-XOR-5: `31 f7` is XOR di,si, so `reg` is the source and `rm` the destination. -/
theorem test_decode_xor_order :
    decode [0b00110001#8, 0b11110111#8] = .instr (.xor .di .si) [] := by decide

/-- R81, E1: `b8 cc ed`. -/
theorem test_decode_mov :
    decode [0b10111000#8, 0b11001100#8, 0b11101101#8] = .instr (.mov .ax 0xEDCC#16) [] := by decide

/-- R83, E1: `69 d0 78 56`. -/
theorem test_decode_imul :
    decode [0b01101001#8, 0b11010000#8, 0b01111000#8, 0b01010110#8] =
      .instr (.imul .dx .ax 0x5678#16) [] := by decide

/-- R89: the bytes next to the accepted ones (V-DEC-8) are refused by name. -/
theorem test_decode_unsupported :
    [0x30#8, 0x32#8, 0x68#8, 0x6A#8, 0xB7#8, 0xC0#8].map (fun b => decode [b, 0xC0#8]) =
      [0x30#8, 0x32#8, 0x68#8, 0x6A#8, 0xB7#8, 0xC0#8].map
        (fun b => DecodeResult.reject (.unsupportedOpcode b)) := by decide

/-- R90: the largest memory-form byte (V-DEC-6), refused before any immediate byte is looked for. -/
theorem test_decode_memory_form :
    decode [0x69#8, 0xBF#8] = .reject (.unsupportedAddressingMode 0xBF#8) := by decide

/-- V-DEC-3: an IMUL without its high immediate byte. -/
theorem test_decode_truncated : decode [0x69#8, 0xD0#8, 0x78#8] = .reject .truncated := by decide

/-- spec/opcode_table.json: XOR's `match` 31C0, MOV's B80000, IMUL's 69C00000. -/
theorem test_table_words :
    decodeTableWord 16 0x31C0 = some (.xor .ax .ax) ∧
    decodeTableWord 24 0xB80000 = some (.mov .ax 0#16) ∧
    decodeTableWord 32 0x69C00000 = some (.imul .ax .ax 0#16) := by decide

/-! ### Well-formedness (R88, R95): an ill-formed line for each check -/

/-- R95: "An assembler refuses the form when they differ": `IMUL dx:ax,cx,5`. -/
theorem test_wf_refuses_other_low_half : (AsmLine.imul .dx .ax .cx 5).wf = false := by decide

/-- R88: an immediate has 16 bits: 65536 does not fit, 65535 does. -/
theorem test_wf_refuses_wide_immediate :
    (AsmLine.mov .ax 65536).wf = false ∧ (AsmLine.imul .dx .ax .ax 65536).wf = false ∧
    (AsmLine.mov .ax 65535).wf = true := by decide

/-- R95's own three examples, the second in lower case and with two spaces. -/
theorem test_assemble_text :
    assembleText "XOR dx,dx".toList = some (.xor .dx .dx) ∧
    assembleText "mov  ax,0xEDCC".toList = some (.mov .ax 0xEDCC#16) ∧
    assembleText "IMUL dx:ax,ax,0x5678".toList = some (.imul .dx .ax 0x5678#16) ∧
    assembleText "IMUL dx:ax,cx,0x5678".toList = none := by decide

/-! ### Single steps -/

/-- Whether a step answers a next state that `p` accepts. -/
def answers (o : Result) (p : State → Bool) : Bool :=
  match o with
  | .next t => p t
  | .fault _ => false
  | .refused _ => false

/-- V-XOR-1: XOR ax,cx with ax=1234, cx=ff00. -/
theorem test_xor :
    answers (exec (.xor .ax .cx) ((withAxDx 0x1234#16 0#16 []).writeReg .cx 0xFF00#16))
      (fun t => t.regs.ax == 0xED34#16 && t.regs.cx == 0xFF00#16) = true := by decide

/-- E1, row pos 1: the step of `d2` completes XOR dx,dx. -/
theorem test_xor_step :
    answers (step (inXor [.byte 0xD2#8]))
      (fun t => t.dstate == .operandByte && t.pos == 2 && t.pending.destReg == .dx) = true := by decide

/-- V-MOV-11: MOV dx,0x8000 is not extended. -/
theorem test_mov :
    answers (exec (.mov .dx 0x8000#16) State.reset) (fun t => t.regs.dx == 0x8000#16) = true := by
  decide

/-- E1, row pos 4: the step of `ed` on ax = cc00. -/
theorem test_mov_step :
    answers (step ((inMov [.byte 0xED#8]).writeReg .ax 0xCC00#16))
      (fun t => t.regs.ax == 0xEDCC#16 && t.dstate == .operandByte) = true := by decide

/-- E1, row pos 8: the step of `56` runs IMUL dx:ax,ax,0x5678 on ax = edcc. -/
theorem test_imul_step :
    answers (step (inImul 0xEDCC#16 [.byte 0x56#8]))
      (fun t => t.regs.ax == 0xFFA0#16 && t.regs.dx == 0xF9D9#16 && t.pos == 9 &&
        t.pending.shadow == 0#16) = true := by decide

/-- V-IMUL-R5: IMUL ax:ax,ax,2 on ax = ffff under high_wins leaves the high half. -/
theorem test_imul_same_register :
    answers (exec (.imul .ax .ax 2#16) (withAxDx 0xFFFF#16 0#16 []))
      (fun t => t.regs.ax == 0xFFFF#16) = true := by decide

/-- V-IMUL: the most negative value squared, and a pair the literal reading gets wrong. -/
theorem test_multiply :
    imul16 0x8000#16 0x8000#16 = { hi := 0x4000#16, lo := 0#16, shadowOut := 0#16 } ∧
    imul16 0x0002#16 0x8000#16 = { hi := 0xFFFF#16, lo := 0#16, shadowOut := 0#16 } := by decide

/-- E1, row pos 0: the step of `31`. -/
theorem test_opcode_step :
    answers (step (fed [.byte 0x31#8]))
      (fun t => t.dstate == .addressingByte && t.pending.expect == 1#2 && t.pos == 1) = true := by
  decide

/-- E2: `ff` from reset. -/
theorem test_error_step :
    answers (step (fed [.byte 0xFF#8]))
      (fun t => t.status == .error && t.err == ⟨.unsupportedOpcode, 0, 0xFF#8⟩ && t.pos == 1) =
      true := by decide

/-- V-MOV-12: End after one immediate byte keeps the half-folded register. -/
theorem test_end_inside :
    answers (step ((inMov [.endOfStream]).writeReg .ax 0x11AB#16))
      (fun t => t.err == ⟨.truncatedInstruction, 2, 0x00#8⟩ && t.regs.ax == 0x11AB#16) = true := by
  decide

/-- R230: Reset in the middle of an IMUL. -/
theorem test_reset_step : step (inImul 0xEDCC#16 [.reset]) = .next State.reset := by rfl

/-- The step after `withFetchWord` runs each row of the table first after reset. -/
theorem test_fetch_words :
    answers (step (State.reset.withFetchWord 16 0x31C0)) (fun t => t.pos == 2) = true ∧
    answers (step (State.reset.withFetchWord 24 0xBACCED))
      (fun t => t.pos == 3 && t.regs.dx == 0xEDCC#16) = true ∧
    answers (step (State.reset.withFetchWord 32 0x69C00000))
      (fun t => t.pos == 4 && t.dstate == .operandByte) = true := by decide

/-! ### Witnesses: a state and operands that meet each obligation's hypotheses -/

theorem witness_DecodedBytesAreTheEncoding :
    decode [0xBF#8, 0xFF#8, 0xFF#8, 0x00#8] = .instr (.mov .di 0xFFFF#16) [0x00#8] := by decide

/-- The last clause of OpcodeMapIsComplete, and of UnsupportedOpcodeEndsTheSession. -/
theorem witness_OpcodeMapIsComplete :
    (fed [.byte 0xC0#8]).AtBoundary ∧ (fed [.byte 0xC0#8]).inputs = .byte 0xC0#8 :: [] ∧
    opcodeOf 0xC0#8 = none ∧ (0xC0#8 : Byte) ≠ 0x31#8 ∧ (0xC0#8 : Byte) ≠ 0x69#8 ∧
    ¬(0xB8#8 ≤ (0xC0#8 : Byte) ∧ (0xC0#8 : Byte) ≤ 0xBF#8) :=
  ⟨⟨rfl, rfl⟩, rfl, rfl, by decide, by decide, by decide⟩

/-- The last clause of AddressingMapIsComplete, at its largest memory-form byte. -/
theorem witness_AddressingMapIsComplete :
    (inXor [.byte 0xBF#8]).status = .running ∧ (inXor [.byte 0xBF#8]).dstate = .addressingByte ∧
    (inXor [.byte 0xBF#8]).inputs = .byte 0xBF#8 :: [] ∧ (0xBF#8 : Byte) ≤ 0xBF#8 := by decide

/-- A text in mixed case; two low halves that differ; the smallest immediate that does not fit. -/
theorem witness_AssemblerReadsItsOwnText :
    lowerCase ['x', 'O', 'r', ' ', 'D', 'x', ',', 'd', 'X'] =
      lowerCase (Instr.xor .dx .dx).asmText ∧
    Reg.ax ≠ Reg.cx ∧ 65536 ≤ 65536 := by decide

theorem witness_MovOpcodeByteBeginsMov :
    (fed [.byte 0xBF#8]).AtBoundary ∧ (fed [.byte 0xBF#8]).inputs = .byte 0xBF#8 :: [] ∧
    (0xBF#8 : Byte).extractLsb' 3 5 = 0b10111#5 :=
  ⟨⟨rfl, rfl⟩, rfl, rfl⟩

theorem witness_TwoOperandOpcodeBytesBegin :
    (fed [.byte 0x31#8]).AtBoundary ∧ (fed [.byte 0x31#8]).inputs = .byte 0x31#8 :: [] ∧
    (fed [.byte 0x69#8]).AtBoundary ∧ (fed [.byte 0x69#8]).inputs = .byte 0x69#8 :: [] :=
  ⟨⟨rfl, rfl⟩, rfl, ⟨rfl, rfl⟩, rfl⟩

theorem witness_UnsupportedOpcodeEndsTheSession :
    (fed [.byte 0xB7#8]).AtBoundary ∧ (fed [.byte 0xB7#8]).inputs = .byte 0xB7#8 :: [] ∧
    (0xB7#8 : Byte).extractLsb' 3 5 ≠ 0b10111#5 ∧ (0xB7#8 : Byte) ≠ 0x31#8 ∧
    (0xB7#8 : Byte) ≠ 0x69#8 :=
  ⟨⟨rfl, rfl⟩, rfl, by decide, by decide, by decide⟩

theorem witness_MemoryFormEndsTheSession :
    (inXor [.byte 0x12#8]).status = .running ∧ (inXor [.byte 0x12#8]).dstate = .addressingByte ∧
    (inXor [.byte 0x12#8]).inputs = .byte 0x12#8 :: [] ∧
    (0x12#8 : Byte).extractLsb' 6 2 ≠ 0b11#2 := by decide

/-- The smallest register-form byte; `expect` is 1, so the instruction completes. -/
theorem witness_RegisterFormAssignsOperands :
    (inXor [.byte 0xC0#8]).status = .running ∧ (inXor [.byte 0xC0#8]).dstate = .addressingByte ∧
    (inXor [.byte 0xC0#8]).inputs = .byte 0xC0#8 :: [] ∧
    (0xC0#8 : Byte).extractLsb' 6 2 = 0b11#2 := by decide

theorem witness_ImulImmediateFoldsIntoShadow :
    (inImul 1#16 [.byte 0x56#8]).status = .running ∧
    (inImul 1#16 [.byte 0x56#8]).dstate = .immediateByte ∧
    (inImul 1#16 [.byte 0x56#8]).pending.tertiary = true ∧
    (inImul 1#16 [.byte 0x56#8]).inputs = .byte 0x56#8 :: [] := by decide

theorem witness_MovImmediateFoldsIntoItsRegister :
    (inMov [.byte 0xED#8]).status = .running ∧ (inMov [.byte 0xED#8]).dstate = .immediateByte ∧
    (inMov [.byte 0xED#8]).pending.tertiary = false ∧
    (inMov [.byte 0xED#8]).pending.operandSizeFlag = true ∧
    (inMov [.byte 0xED#8]).inputs = .byte 0xED#8 :: [] := by decide

/-- A state of the 8-bit row's first clause (no run reaches it), and one of the second clause. -/
theorem witness_EightBitRowIsUnreachable :
    (∃ s : State, s.status = .running ∧ s.dstate = .immediateByte ∧ s.pending.tertiary = false ∧
      s.pending.operandSizeFlag = false ∧ s.inputs = .byte 0xFF#8 :: []) ∧
    (inMov []).Inv ∧ (inMov []).dstate = .immediateByte :=
  ⟨⟨{ fed [.byte 0xFF#8] with dstate := .immediateByte }, rfl, rfl, rfl, rfl, rfl⟩,
    ⟨⟨rfl, rfl, .inl ⟨rfl, rfl⟩, .inl rfl⟩, rfl⟩, rfl⟩

theorem witness_CompletingStepRunsTheDescriptor :
    (inXor [.byte 0xC8#8]).status = .running ∧
    (inXor [.byte 0xC8#8]).inputs = .byte 0xC8#8 :: [] ∧
    (inXor [.byte 0xC8#8]).completedBy 0xC8#8 ∧
    (({ inXor [.byte 0xC8#8] with inputs := [] } : State).operandTaken 0xC8#8).descriptor =
      some (.xor .ax .cx) :=
  ⟨rfl, rfl, ⟨by decide, fun _ => rfl, rfl⟩, rfl⟩

theorem witness_PresentedBytesRunTheirInstruction :
    (fed (byteEvents [0x69#8, 0xD0#8, 0x78#8, 0x56#8, 0x31#8] ++ [.endOfStream])).AtBoundary ∧
    decode [0x69#8, 0xD0#8, 0x78#8, 0x56#8, 0x31#8] =
      .instr (.imul .dx .ax 0x5678#16) [0x31#8] :=
  ⟨⟨rfl, rfl⟩, by decide⟩

theorem witness_StreamOfInstructionsEndsDone :
    (fed (streamEvents (encodeAll [.xor .dx .dx, .mov .ax 0xEDCC#16]) ++ [.reset])).AtBoundary ∧
    (fed (streamEvents (encodeAll [.xor .dx .dx, .mov .ax 0xEDCC#16]) ++ [.reset])).inputs =
      streamEvents (encodeAll [.xor .dx .dx, .mov .ax 0xEDCC#16]) ++ [.reset] :=
  ⟨⟨rfl, rfl⟩, rfl⟩

/-- Each of the three rejections, the truncation being a MOV's after one immediate byte. -/
theorem witness_RejectedStreamEndsInItsError :
    (fed (streamEvents [0xB8#8, 0x11#8] ++ [])).AtBoundary ∧ [0xB8#8, 0x11#8] ≠ ([] : List Byte) ∧
    decode [0xB8#8, 0x11#8] = .reject .truncated ∧
    decode [0xFF#8] = .reject (.unsupportedOpcode 0xFF#8) ∧
    decode [0x31#8, 0x12#8] = .reject (.unsupportedAddressingMode 0x12#8) :=
  ⟨⟨rfl, rfl⟩, by decide, by decide, by decide, by decide⟩

theorem witness_EndOfStreamEndsTheSession :
    ((inMov [.endOfStream]).status = .running ∧ (inMov [.endOfStream]).dstate ≠ .operandByte ∧
      (inMov [.endOfStream]).inputs = .endOfStream :: []) ∧
    (fed [.endOfStream]).AtBoundary ∧ (fed [.endOfStream]).inputs = .endOfStream :: [] :=
  ⟨by decide, ⟨rfl, rfl⟩, rfl⟩

/-- Two ignored events before a Reset, and a step that leaves the state: of Error, then of Done. -/
theorem witness_DoneAndErrorLastUntilReset :
    (inError [.byte 0x31#8, .endOfStream, .reset]).status ≠ .running ∧
    noResetIn 2 (inError [.byte 0x31#8, .endOfStream, .reset]).inputs ∧
    (inError [.reset]).status ≠ .running ∧ step (inError [.reset]) = .next State.reset ∧
    State.reset.status ≠ (inError [.reset]).status :=
  ⟨by decide, by simp [noResetIn, inError, fed], by decide, rfl, by decide⟩

theorem witness_DoneAndErrorLastUntilReset_done :
    (inDone [.byte 0x31#8, .endOfStream, .reset]).status ≠ .running ∧
    noResetIn 2 (inDone [.byte 0x31#8, .endOfStream, .reset]).inputs ∧
    (inDone [.reset]).status ≠ .running ∧ step (inDone [.reset]) = .next State.reset ∧
    State.reset.status ≠ (inDone [.reset]).status :=
  ⟨by decide, by simp [noResetIn, inDone, fed], by decide, rfl, by decide⟩

/-- One step into each of the three errors: an opcode, a memory form, an End inside a MOV. -/
theorem witness_ErrorsArePrecise :
    (fed [.byte 0xFF#8]).status = .running ∧
    step (fed [.byte 0xFF#8]) = .next (inError []) ∧ (inError []).status = .error ∧
    (inXor [.byte 0xBF#8]).status = .running ∧
    step (inXor [.byte 0xBF#8]) = .next
      ((inXor []).advancePos.raise .unsupportedAddressingMode 1 0xBF#8) ∧
    ((inXor []).advancePos.raise .unsupportedAddressingMode 1 0xBF#8).status = .error ∧
    (inMov [.endOfStream]).status = .running ∧
    step (inMov [.endOfStream]) = .next ((inMov []).raise .truncatedInstruction 2 0x00#8) ∧
    ((inMov []).raise .truncatedInstruction 2 0x00#8).status = .error :=
  ⟨rfl, rfl, rfl, rfl, rfl, rfl, rfl, rfl, rfl⟩

theorem witness_ResetEventGivesTheResetState :
    (inError [.reset, .byte 0x31#8]).inputs = .reset :: [.byte 0x31#8] := rfl

theorem witness_SessionsDoNotInterfere :
    (inError [.reset, .byte 0x31#8]).config = (inMov [.reset, .byte 0x31#8]).config ∧
    (inError [.reset, .byte 0x31#8]).draws = (inMov [.reset, .byte 0x31#8]).draws ∧
    (inError [.reset, .byte 0x31#8]).inputs = .reset :: [.byte 0x31#8] ∧
    (inMov [.reset, .byte 0x31#8]).inputs = .reset :: [.byte 0x31#8] := by decide

theorem witness_SameStreamSameState :
    (inError [.reset]).config.imulSameReg = .highWins ∧
    ({ inMov [.reset] with draws := 5 } : State).config = (inError [.reset]).config ∧
    (inError [.reset]).inputs = .reset :: [] ∧
    ({ inMov [.reset] with draws := 5 } : State).inputs = .reset :: [] ∧
    runSteps (0 + 1) (inError [.reset]) = .next State.reset :=
  ⟨rfl, rfl, rfl, rfl, rfl⟩

/-- One register and two registers, and the memory-form clause, of XorWritesTheExclusiveOr. -/
theorem witness_XorWritesTheExclusiveOr :
    Reg.di = Reg.di ∧ Reg.cx ≠ Reg.ax ∧ (fed [.byte 0x31#8, .byte 0xBF#8]).AtBoundary ∧
    (fed [.byte 0x31#8, .byte 0xBF#8]).inputs = .byte 0x31#8 :: .byte 0xBF#8 :: [] ∧
    isRegisterForm 0xBF#8 = false :=
  ⟨rfl, by decide, ⟨rfl, rfl⟩, rfl, rfl⟩

theorem witness_XorIsBitwiseAndItsOwnInverse : Reg.ax ≠ Reg.di := by decide

/-- The clauses of MovWritesTheImmediate: another register, a register that holds the immediate,
and a MOV cut off after one immediate byte. -/
theorem witness_MovWritesTheImmediate :
    Reg.di ≠ Reg.ax ∧ State.reset.readReg .ax = 0x0000#16 ∧
    (fed (streamEvents [movOpcode .di, 0xFF#8] ++ [])).AtBoundary ∧
    (fed (streamEvents [movOpcode .di, 0xFF#8] ++ [])).inputs =
      streamEvents [movOpcode .di, 0xFF#8] ++ [] :=
  ⟨by decide, rfl, ⟨rfl, rfl⟩, rfl⟩

/-- The memory-form clause of ImulWritesTheSignedProduct. -/
theorem witness_ImulWritesTheSignedProduct_memoryForm :
    (fed [.byte 0x69#8, .byte 0x00#8]).AtBoundary ∧
    (fed [.byte 0x69#8, .byte 0x00#8]).inputs = .byte 0x69#8 :: .byte 0x00#8 :: [] ∧
    isRegisterForm 0x00#8 = false :=
  ⟨⟨rfl, rfl⟩, rfl, rfl⟩

/-- The three register clauses of ImulWritesTheSignedProduct: two registers, one under each
setting of the parameter, and a third register. -/
theorem witness_ImulWritesTheSignedProduct :
    Reg.dx ≠ Reg.ax ∧ State.reset.config.imulSameReg = .highWins ∧
    ({ State.reset with config := { imulSameReg := .draw } } : State).config.imulSameReg = .draw ∧
    Reg.di ≠ Reg.dx ∧ Reg.di ≠ Reg.ax := by decide

theorem witness_OldHighRegisterIsNoInput : Reg.di ≠ Reg.ax := by decide

theorem witness_InstructionsReadOnlyRegisters :
    (fed []).regs = (inError []).regs ∧ (fed []).config = (inError []).config ∧
    (fed []).draws = (inError []).draws := by decide

/-- The unsigned clause of MultiplyIsTheExactSignedProduct at its bound. -/
theorem witness_MultiplyIsTheExactSignedProduct :
    (0x7FFF#16 : Word).toNat ≤ 0x7FFF ∧ (0x0000#16 : Word).toNat ≤ 0x7FFF := by decide

theorem witness_LoopMakesBitLengthPasses : 16 ≤ 16 := by decide

/-- The per-pass clause of UnsignedProductNeverWraps before any pass and before the last one, and
the pair of its last clause. -/
theorem witness_UnsignedProductNeverWraps :
    (let w := mulLoop 0 (mulStart (magnitude 0x0001#16) (magnitude 0x8000#16))
     mulGoesOn w = true ∧ w.mult.getLsbD 0 = true) ∧
    (let w := mulLoop 15 (mulStart (magnitude 0x8000#16) (magnitude 0x8000#16))
     mulGoesOn w = true ∧ w.mult.getLsbD 0 = true) ∧
    (magnitude 0x8000#16).toNat * (magnitude 0x8000#16).toNat = 0x40000000 := by decide

theorem witness_ZeroOperandGivesZero :
    ((0x0000#16 : Word) = 0#16 ∨ (0x8000#16 : Word) = 0#16) ∧
    ((0x8000#16 : Word) = 0#16 ∨ (0x0000#16 : Word) = 0#16) := by decide

/-- The three sign clauses of ProductFollowsTheSigns at the ends of their ranges. -/
theorem witness_ProductFollowsTheSigns :
    ((0x7FFF#16 : Word).getLsbD 15 = false ∧ (0x0000#16 : Word).getLsbD 15 = false) ∧
    (0x7FFF#16 : Word).getLsbD 15 ≠ (0x8000#16 : Word).getLsbD 15 ∧
    ((0x8000#16 : Word).getLsbD 15 = true ∧ (0xFFFF#16 : Word).getLsbD 15 = true) := by decide

/-- A state in the middle of a MOV has the invariant, and a step from it. -/
theorem witness_EveryStepKeepsTheInvariant :
    (inMov []).Inv ∧ step (inMov []) = .next (inMov []) ∧
    (fed [.byte 0xFF#8]).Inv ∧ step (fed [.byte 0xFF#8]) = .next (inError []) :=
  ⟨⟨⟨rfl, rfl, .inl ⟨rfl, rfl⟩, .inl rfl⟩, rfl⟩, rfl, ⟨⟨rfl, rfl⟩, rfl⟩, rfl⟩

theorem witness_NoStepStops : (inImul 1#16 [.byte 0x56#8]).Inv :=
  ⟨⟨rfl, rfl, .inr ⟨rfl, rfl⟩, .inl rfl⟩, rfl⟩

/-- A MOV's last byte changes AX. -/
theorem witness_OnlyTheListedWritersWriteRegisters :
    (inMov [.byte 0xED#8]).Inv ∧
    ∃ t, step (inMov [.byte 0xED#8]) = .next t ∧ t.readReg .ax ≠ (inMov []).readReg .ax :=
  ⟨⟨⟨rfl, rfl, .inl ⟨rfl, rfl⟩, .inl rfl⟩, rfl⟩, _, rfl, by decide⟩

theorem witness_PositionCountsConsumedBytes :
    step (fed [.byte 0xFF#8]) = .next (inError []) := rfl

/-- The opcode clause and the operand clause of ExpectCountsTheBytesToCome. -/
theorem witness_ExpectCountsTheBytesToCome :
    ((fed [.byte 0x31#8]).Inv ∧ (fed [.byte 0x31#8]).status = .running ∧
      (fed [.byte 0x31#8]).dstate = .operandByte ∧
      ∃ t, step (fed [.byte 0x31#8]) = .next t ∧ t.status = .running) ∧
    (inMov [.byte 0xED#8]).Inv ∧ (inMov [.byte 0xED#8]).dstate ≠ .operandByte ∧
    ∃ t, step (inMov [.byte 0xED#8]) = .next t ∧ t.status = .running :=
  ⟨⟨⟨⟨rfl, rfl⟩, rfl⟩, rfl, rfl, _, rfl, rfl⟩,
    ⟨⟨rfl, rfl, .inl ⟨rfl, rfl⟩, .inl rfl⟩, rfl⟩, by decide, _, rfl, rfl⟩

/-- Completion on an addressing byte and on an immediate byte. -/
theorem witness_CompletionKeepsTheRecord :
    ((inXor [.byte 0xC8#8]).Inv ∧ (inXor [.byte 0xC8#8]).completedBy 0xC8#8 ∧
      ∃ t, step (inXor [.byte 0xC8#8]) = .next t) ∧
    (inMov [.byte 0xED#8]).Inv ∧ (inMov [.byte 0xED#8]).completedBy 0xED#8 ∧
    ∃ t, step (inMov [.byte 0xED#8]) = .next t :=
  ⟨⟨⟨⟨rfl, rfl, .inl ⟨rfl, rfl, rfl⟩⟩, rfl⟩, ⟨by decide, fun _ => rfl, rfl⟩, _, rfl⟩,
    ⟨⟨rfl, rfl, .inl ⟨rfl, rfl⟩, .inl rfl⟩, rfl⟩, ⟨by decide, by decide, rfl⟩, _, rfl⟩

/-- An IMUL's immediate byte changes `shadow`; and a boundary with an instruction presented. -/
theorem witness_OnlyImulUsesShadow :
    (inImul 1#16 [.byte 0x56#8]).Inv ∧
    (∃ t, step (inImul 1#16 [.byte 0x56#8]) = .next t ∧
      t.pending.shadow ≠ (inImul 1#16 []).pending.shadow) ∧
    (fed (byteEvents (encode (.imul .dx .ax 3#16)) ++ [])).AtBoundary :=
  ⟨⟨⟨rfl, rfl, .inr ⟨rfl, rfl⟩, .inl rfl⟩, rfl⟩, ⟨_, rfl, by decide⟩, ⟨rfl, rfl⟩⟩

theorem witness_LeftoverRecordIsUnobservable :
    (fed [.byte 0xFF#8]).AtBoundary ∧ runSteps 1 (fed [.byte 0xFF#8]) = .next (inError []) :=
  ⟨⟨rfl, rfl⟩, rfl⟩

theorem witness_OnlyFourErrorCodesOccur : (inError []).Inv :=
  ⟨⟨rfl, rfl⟩, .inl ⟨rfl, rfl, rfl, rfl⟩⟩

theorem witness_HalfFoldedMovIsSeenByNoInstruction :
    (fed (byteEvents [movOpcode .di, 0x11#8, 0xFF#8] ++ [])).AtBoundary ∧
    (fed (byteEvents [movOpcode .di, 0x11#8, 0xFF#8] ++ [])).inputs =
      byteEvents [movOpcode .di, 0x11#8, 0xFF#8] ++ [] :=
  ⟨⟨rfl, rfl⟩, rfl⟩

end Sys2Proof.Tests
end

section
/-! PROOFS. The values the state starts from (R26, R50) and the ports that read it (R47). -/

namespace Sys2Proof.Machine

/-- R26, D10: every register holds 0x0000 after reset. -/
@[simp] theorem readReg_reset (r : Reg) : State.reset.readReg r = 0x0000#16 := by
  cases r <;> rfl

/-- Settles O25: the registers by `readReg_reset`, every other field by R50's own value. -/
theorem resetStateHasTheSpecsValues : Obligations.ResetStateHasTheSpecsValues :=
  ⟨readReg_reset, rfl, rfl, rfl, rfl, rfl, rfl, rfl, rfl, rfl, rfl, rfl, rfl, rfl, rfl⟩

@[simp] theorem outputs_outValid (s : State) : s.outputs.outValid = true ↔ s.status = .done :=
  decide_eq_true_iff

@[simp] theorem outputs_outError (s : State) : s.outputs.outError = true ↔ s.status = .error :=
  decide_eq_true_iff

/-- Settles O29: the two flags are tests of `status`, the other ports are fields of the state. -/
theorem outputsReadDxAndAx : Obligations.OutputsReadDxAndAx := fun s =>
  ⟨rfl, rfl, outputs_outValid s, outputs_outError s, rfl, rfl, rfl⟩

end Sys2Proof.Machine
end

section
/-! PROOFS. What the decoder's invariant says at each decoder state, and what an opcode byte and an
operand byte do under it (R30 to R35, R112 to R124). -/

namespace Sys2Proof.Machine

/-! ### The invariant at each decoder state -/

theorem State.DecoderInv.of_addressingByte {s : State} (h : s.DecoderInv)
    (hd : s.dstate = .addressingByte) :
    s.pending.operandSizeFlag = true ∧ s.pending.directionFlag = false ∧
      ((s.pending.opcodeClass = .xor ∧ s.pending.tertiary = false ∧ s.pending.expect = 1#2) ∨
        (s.pending.opcodeClass = .imul ∧ s.pending.tertiary = true ∧ s.pending.expect = 3#2)) := by
  simpa only [State.DecoderInv, hd] using h

theorem State.DecoderInv.of_immediateByte {s : State} (h : s.DecoderInv)
    (hd : s.dstate = .immediateByte) :
    s.pending.operandSizeFlag = true ∧ s.pending.directionFlag = false ∧
      ((s.pending.opcodeClass = .mov ∧ s.pending.tertiary = false) ∨
        (s.pending.opcodeClass = .imul ∧ s.pending.tertiary = true)) ∧
      (s.pending.expect = 1#2 ∨ s.pending.expect = 2#2) := by
  simpa only [State.DecoderInv, hd] using h

/-- Inside an instruction at least one byte is still to come. -/
theorem State.DecoderInv.expect_ne_zero {s : State} (h : s.DecoderInv)
    (hd : s.dstate ≠ .operandByte) : s.pending.expect ≠ 0#2 := by
  cases hs : s.dstate with
  | operandByte => exact absurd hs hd
  | addressingByte =>
    obtain ⟨-, -, ⟨-, -, he⟩ | ⟨-, -, he⟩⟩ := h.of_addressingByte hs <;> simp [he]
  | immediateByte =>
    obtain ⟨-, -, -, he | he⟩ := h.of_immediateByte hs <;> simp [he]

/-! ### An opcode byte -/

/-- R112 to R114: an opcode byte that raises no error leaves the boundary, and sets the class and
the number of bytes to come. -/
theorem takeOpcode_of_running {s : State} {p : Nat} {b : Byte}
    (h : (s.takeOpcode p b).status = .running) :
    (s.takeOpcode p b).dstate ≠ .operandByte ∧
      (((s.takeOpcode p b).pending.opcodeClass = .imul ∧
          (s.takeOpcode p b).pending.expect = 3#2) ∨
        ((s.takeOpcode p b).pending.opcodeClass = .xor ∧
          (s.takeOpcode p b).pending.expect = 1#2) ∨
        ((s.takeOpcode p b).pending.opcodeClass = .mov ∧
          (s.takeOpcode p b).pending.expect = 2#2)) := by
  unfold State.takeOpcode at h ⊢
  split at h
  · simp [State.beginMov]
  · simp [State.beginXor]
  · simp [State.beginImul]
  · simp at h

@[simp] theorem readReg_takeOpcode (s : State) (p : Nat) (b : Byte) (r : Reg) :
    (s.takeOpcode p b).readReg r = s.readReg r := by
  unfold State.takeOpcode
  split <;> rfl

/-! ### An operand byte -/

/-- The two shapes of a counted operand byte in `StepCase` are one: `operandTaken`. -/
theorem eq_operandTaken_of_counted {s u : State} {b : Byte} {rest : List Event}
    (hu : (s.dstate = .addressingByte ∧ isRegisterForm b = true ∧
        u = ({ s with inputs := rest, pos := s.pos + 1 } : State).addressed b) ∨
      (s.dstate = .immediateByte ∧
        u = ({ s with inputs := rest, pos := s.pos + 1 } : State).immediated b)) :
    s.dstate ≠ .operandByte ∧ (s.dstate = .addressingByte → isRegisterForm b = true) ∧
      u = ({ s with inputs := rest } : State).operandTaken b := by
  obtain ⟨hd, hb, rfl⟩ | ⟨hd, rfl⟩ := hu
  · exact ⟨by simp [hd], fun _ => hb, by simp only [State.operandTaken, hd]; rfl⟩
  · exact ⟨by simp [hd], by simp [hd], by simp only [State.operandTaken, hd]; rfl⟩

@[simp] theorem operandTaken_opcodeClass (s : State) (b : Byte) :
    (s.operandTaken b).pending.opcodeClass = s.pending.opcodeClass := by
  unfold State.operandTaken
  split
  · rfl
  · rfl
  · rw [immediated_frame]; rfl

/-- R119 and R123: under the invariant every operand byte counts `expect` down. -/
theorem operandTaken_expect {s : State} (h : s.DecoderInv) (hd : s.dstate ≠ .operandByte)
    (b : Byte) : (s.operandTaken b).pending.expect = s.pending.expect - 1#2 := by
  cases hs : s.dstate with
  | operandByte => exact absurd hs hd
  | addressingByte => simp [State.operandTaken, hs]
  | immediateByte =>
    obtain ⟨hsize, -⟩ := h.of_immediateByte hs
    simp [State.operandTaken, hs, immediated_expect, hsize]

/-- The countdown does not wrap: a byte was still to come. -/
theorem operandTaken_expect_toNat {s : State} (h : s.DecoderInv) (hd : s.dstate ≠ .operandByte)
    (b : Byte) : (s.operandTaken b).pending.expect.toNat + 1 = s.pending.expect.toNat := by
  have hne := h.expect_ne_zero hd
  rw [operandTaken_expect h hd]
  bv_omega

/-- R118, R120, R121: the one register an operand byte writes is a MOV's destination. -/
theorem operandTaken_writes {s : State} (h : s.DecoderInv) {b : Byte} {r : Reg}
    (hr : (s.operandTaken b).readReg r ≠ s.readReg r) :
    s.pending.opcodeClass = .mov ∧ s.dstate = .immediateByte ∧ r = s.pending.destReg := by
  cases hs : s.dstate with
  | operandByte => simp [State.operandTaken, hs] at hr
  | addressingByte =>
    simp only [State.operandTaken, hs] at hr
    exact absurd rfl hr
  | immediateByte =>
    simp only [State.operandTaken, hs] at hr
    obtain ⟨hsize, -, ⟨hclass, hter⟩ | ⟨-, hter⟩, -⟩ := h.of_immediateByte hs
    · refine ⟨hclass, rfl, ?_⟩
      rw [immediated_mov (by exact hter) (by exact hsize)] at hr
      by_contra hne
      exact hr (RegFile.get_set_other _ hne _)
    · rw [immediated_imul (by exact hter)] at hr
      exact absurd rfl hr

/-! ### What the executor leaves in the pending record -/

/-- An executed instruction leaves all of the pending record but `shadow`. -/
theorem exec_pending {i : Instr} {s t : State} (h : exec i s = .next t) :
    t.pending = { s.pending with shadow := t.pending.shadow } :=
  congrArg State.pending (exec_frame h)

theorem exec_expect {i : Instr} {s t : State} (h : exec i s = .next t) :
    t.pending.expect = s.pending.expect := by
  rw [exec_pending h]

theorem exec_destReg {i : Instr} {s t : State} (h : exec i s = .next t) :
    t.pending.destReg = s.pending.destReg := by
  rw [exec_pending h]

theorem exec_srcReg {i : Instr} {s t : State} (h : exec i s = .next t) :
    t.pending.srcReg = s.pending.srcReg := by
  rw [exec_pending h]

end Sys2Proof.Machine
end

section
/-! PROOFS. R32: the count of the bytes to come. -/

namespace Sys2Proof.Machine

/-- Settles O49, by what the step's byte was: an opcode byte sets the count, an operand byte counts
it down, and completion happens exactly at 0. -/
theorem expectCountsTheBytesToCome : Obligations.ExpectCountsTheBytesToCome := by
  rintro s t b rest ⟨hdec, -⟩ hrun hin hstep htrun
  cases step_cases hstep with
  | idle h ht => simp [h] at hin
  | ignored e rest' h hs he ht => exact absurd hrun hs
  | reset rest' h ht => simp [h] at hin
  | ended rest' h hs ht => simp [h] at hin
  | opcode b' rest' h hs hd ht =>
    subst ht
    obtain ⟨hleft, hset⟩ := takeOpcode_of_running htrun
    refine ⟨fun _ => hset, fun hne => absurd hd hne, iff_of_false hleft ?_⟩
    obtain ⟨-, he⟩ | ⟨-, he⟩ | ⟨-, he⟩ := hset <;> simp [he]
  | memoryForm b' rest' h hs hd hb ht => simp [ht] at htrun
  | goesOn b' rest' u h hs hu hx ht =>
    obtain ⟨hd, -, rfl⟩ := eq_operandTaken_of_counted hu
    subst ht
    exact ⟨fun h0 => absurd h0 hd,
      fun _ => operandTaken_expect_toNat (s := { s with inputs := rest' }) hdec hd b',
      iff_of_false (by simp) hx⟩
  | completes b' rest' u v i h hs hu hx hi hv ht =>
    obtain ⟨hd, -, rfl⟩ := eq_operandTaken_of_counted hu
    subst ht
    have hcount := operandTaken_expect_toNat (s := { s with inputs := rest' }) hdec hd b'
    rw [← exec_expect hv] at hcount hx
    exact ⟨fun h0 => absurd h0 hd, fun _ => hcount, iff_of_true rfl hx⟩

end Sys2Proof.Machine
end

section
/-! PROOFS. R23: the writers of the registers. -/

namespace Sys2Proof.Machine

/-- R203, R210: the end of the stream writes no register. -/
@[simp] theorem readReg_endRunning (s : State) (r : Reg) :
    s.endRunning.readReg r = s.readReg r := by
  unfold State.endRunning
  split <;> rfl

/-- R143: an IMUL writes no register but its two halves. -/
theorem readReg_imulled_other (s : State) {rh rl r : Reg} (imm : Word) (hh : r ≠ rh) (hl : r ≠ rl) :
    (s.imulled rh rl imm).readReg r = s.readReg r := by
  unfold State.readReg
  rw [imulled_regs]
  split <;> simp [hh, hl]

/-- R141 to R143: which register the executor changes when it runs the decoder's descriptor. A MOV
changes none: its immediate stands in its register already (R36, R121). -/
theorem exec_descriptor_writes {u v : State} {i : Instr} {r : Reg} (hi : u.descriptor = some i)
    (hv : exec i u = .next v) (hr : v.readReg r ≠ u.readReg r) :
    (u.pending.opcodeClass = .xor ∧ r = u.pending.destReg) ∨
      (u.pending.opcodeClass = .imul ∧ (r = u.pending.destReg ∨ r = u.pending.srcReg)) := by
  unfold State.descriptor at hi
  split at hi
  · cases hi
  · next hclass =>
    cases hi
    cases hv
    refine .inl ⟨hclass, ?_⟩
    by_contra hne
    exact hr (State.readReg_writeReg_other u hne _)
  · cases hi
    cases hv
    exact absurd (by rw [State.writeReg_readReg]) hr
  · next hclass =>
    cases hi
    cases hv
    refine .inr ⟨hclass, ?_⟩
    by_contra hne
    obtain ⟨hdest, hsrc⟩ := not_or.1 hne
    exact hr (readReg_imulled_other u _ hsrc hdest)

/-- Settles O47: only Reset, a MOV's immediate byte (`operandTaken_writes`) and the executor at a
completion (`exec_descriptor_writes`) change a register. -/
theorem onlyTheListedWritersWriteRegisters : Obligations.OnlyTheListedWritersWriteRegisters := by
  rintro s t r ⟨hdec, -⟩ hstep hr
  cases step_cases hstep with
  | idle h ht => exact absurd (by rw [ht]) hr
  | ignored e rest h hs he ht => exact absurd (by rw [ht]; rfl) hr
  | reset rest h ht => exact .inl (by simp [h])
  | ended rest h hs ht => exact absurd (by rw [ht, readReg_endRunning]; rfl) hr
  | opcode b rest h hs hd ht => exact absurd (by rw [ht, readReg_takeOpcode]; rfl) hr
  | memoryForm b rest h hs hd hb ht => exact absurd (by rw [ht]; rfl) hr
  | goesOn b rest u h hs hu hx ht =>
    obtain ⟨-, -, rfl⟩ := eq_operandTaken_of_counted hu
    subst ht
    exact .inr ⟨hs, b, by simp [h], .inr (.inr
      (operandTaken_writes (s := { s with inputs := rest }) hdec hr))⟩
  | completes b rest u v i h hs hu hx hi hv ht =>
    obtain ⟨hd, hform, rfl⟩ := eq_operandTaken_of_counted hu
    refine .inr ⟨hs, b, by simp [h], ?_⟩
    by_cases hbyte : (({ s with inputs := rest } : State).operandTaken b).readReg r = s.readReg r
    · have hdone : s.completedBy b := (completedBy_inputs s b rest).1 ⟨hd, hform, hx⟩
      have hexec :
          v.readReg r ≠ (({ s with inputs := rest } : State).operandTaken b).readReg r := by
        rw [hbyte, ← State.readReg_endInstruction, ← ht]
        exact hr
      have hwrites := exec_descriptor_writes hi hv hexec
      rw [operandTaken_opcodeClass, ← exec_destReg hv, ← exec_srcReg hv] at hwrites
      subst ht
      obtain ⟨hclass, hreg⟩ | ⟨hclass, hreg⟩ := hwrites
      · exact .inl ⟨hclass, hdone, hreg⟩
      · exact .inr (.inl ⟨hclass, hdone, hreg⟩)
    · exact .inr (.inr (operandTaken_writes (s := { s with inputs := rest }) hdec hbyte))

end Sys2Proof.Machine
end

section
/-! PROOFS. The immediate of two bytes (R87): its value, the fold that assembles it, and the two
instructions that carry it. -/

namespace Sys2Proof

/-- R87: `b_second:b_first`, as an OR of the two bytes in their places. -/
theorem imm16_eq_or (first second : Byte) :
    imm16 first second = (first.setWidth 16 ||| (second.setWidth 16 <<< 8)) := by
  rw [imm16, BitVec.append_def, BitVec.shiftLeftZeroExtend_eq, BitVec.setWidth'_eq, BitVec.or_comm]

/-- R87, R120, R121: the second fold shifts what stood there before the first one out, so only the
two bytes are left. -/
theorem foldByte_foldByte (prior : Word) (first second : Byte) :
    foldByte (foldByte prior first) second = imm16 first second := by
  have hshift : foldByte prior first >>> 8 = first.setWidth 16 := by
    ext i hi
    have hgone : prior.getLsbD (8 + (8 + i)) = false := BitVec.getLsbD_of_ge _ _ (by omega)
    by_cases hlow : i < 8
    · have hkept : 8 + i < 16 := by omega
      simp [foldByte, hgone, hlow, hkept]
    · have hzero : first.getLsbD i = false := BitVec.getLsbD_of_ge _ _ (by omega)
      simp [foldByte, hgone, hzero]
  rw [imm16_eq_or, ← hshift]
  rfl

@[simp] theorem decode_movOpcode (rd : Reg) (rest : List Byte) :
    decode (movOpcode rd :: rest) = decodeMov rd rest := by
  simp [decode]

@[simp] theorem decode_imulOpcode (rest : List Byte) :
    decode (0x69#8 :: rest) = decodeImul 0x69#8 rest := by
  simp [decode]

/-- R83: the bytes after an IMUL's opcode byte. -/
@[simp] theorem decodeImul_addressingByte (rh rl : Reg) (first second : Byte) (rest : List Byte) :
    decodeImul 0x69#8 (addressingByte rh rl :: first :: second :: rest) =
      .instr (.imul rh rl (imm16 first second)) rest := by
  simp [decodeImul]

/-- Settles O7: the value by `imm16_eq_or`, the folds by `foldByte_foldByte`, the two decodings by
the opcode byte. -/
theorem twoFoldsAssembleTheImmediate : Obligations.TwoFoldsAssembleTheImmediate := by
  refine ⟨imm16_eq_or, foldByte_foldByte, fun rd first second rest => ?_,
    fun rh rl first second rest => ?_, rfl, rfl⟩
  · rw [decode_movOpcode, decodeMov]
  · rw [decode_imulOpcode, decodeImul_addressingByte]

end Sys2Proof
end

section
/-! PROOFS. The opcode map (R89) and the addressing-byte map (R90), with the step of a byte that
each of them rejects (R115, R117). -/

namespace Sys2Proof

/-- R81, R89: the MOV opcode bytes `10111 r` are 0xB8 to 0xBF. -/
theorem movPrefix_iff (b : Byte) : b.extractLsb' 3 5 = 0b10111#5 ↔ 0xB8#8 ≤ b ∧ b ≤ 0xBF#8 := by
  rw [← BitVec.toNat_inj, BitVec.extractLsb'_toNat, Nat.shiftRight_eq_div_pow, BitVec.le_def,
    BitVec.le_def, BitVec.toNat_ofNat, BitVec.toNat_ofNat, BitVec.toNat_ofNat]
  omega

/-- R89: the bytes without an instruction are those outside its ten rows. -/
theorem opcodeOf_eq_none_iff (b : Byte) :
    opcodeOf b = none ↔ ¬(0xB8#8 ≤ b ∧ b ≤ 0xBF#8) ∧ b ≠ 0x31#8 ∧ b ≠ 0x69#8 := by
  rw [← movPrefix_iff]
  unfold opcodeOf
  split_ifs with hmov hxor himul
  · simp [hmov]
  · simp [hxor]
  · simp [himul]
  · simp [hmov, hxor, himul]

/-- R89: there are 246 of them. -/
theorem unsupportedOpcode_count :
    ((List.range 256).filter fun n => (opcodeOf (BitVec.ofNat 8 n)).isNone).length = 246 := by
  decide +kernel

/-- R90: the register forms are 0xC0 to 0xFF. -/
theorem isRegisterForm_iff (b : Byte) : isRegisterForm b = true ↔ 0xC0#8 ≤ b := by
  unfold isRegisterForm modField
  rw [beq_iff_eq, ← BitVec.toNat_inj, BitVec.extractLsb'_toNat, Nat.shiftRight_eq_div_pow,
    BitVec.le_def, BitVec.toNat_ofNat, BitVec.toNat_ofNat]
  omega

/-- R85: `reg` is bits 5:3. -/
theorem regField_toNat (b : Byte) : (regField b).toNat = b.toNat / 8 % 8 := by
  rw [regField, BitVec.extractLsb'_toNat, Nat.shiftRight_eq_div_pow]

/-- R85: `rm` is bits 2:0. -/
theorem rmField_toNat (b : Byte) : (rmField b).toNat = b.toNat % 8 := by
  rw [rmField, BitVec.extractLsb'_toNat, Nat.shiftRight_zero]

namespace Machine

/-- R115: an opcode byte without an instruction takes `UnsupportedOpcode` at its own position. -/
theorem takeOpcode_of_none {b : Byte} (h : opcodeOf b = none) (s : State) (p : Nat) :
    s.takeOpcode p b = s.raise .unsupportedOpcode p b := by
  simp [State.takeOpcode, h]

/-- R115, R201: the step of an opcode byte without an instruction. -/
theorem step_unsupportedOpcode {s : State} {b : Byte} {rest : List Event} (hs : s.AtBoundary)
    (hin : s.inputs = .byte b :: rest) (hb : opcodeOf b = none) :
    step s = .next
      (({ s with inputs := rest, pos := s.pos + 1 } : State).raise .unsupportedOpcode s.pos b) := by
  obtain ⟨hrun, hd⟩ := hs
  rw [step_byte_running hrun hin, takeRunning_operandByte (by exact hd), takeOpcode_of_none hb]

/-- R117, R202: the step of a memory-form addressing byte. -/
theorem step_memoryForm {s : State} {b : Byte} {rest : List Event} (hrun : s.status = .running)
    (hd : s.dstate = .addressingByte) (hin : s.inputs = .byte b :: rest)
    (hb : isRegisterForm b = false) :
    step s = .next
      (({ s with inputs := rest, pos := s.pos + 1 } : State).raise .unsupportedAddressingMode
        s.pos b) := by
  rw [step_byte_running hrun hin, takeRunning_memoryForm (by exact hd) _ hb]

/-- Settles O4: the ten rows by evaluation, every other byte by `opcodeOf_eq_none_iff` and
`unsupportedOpcode_count`, the error by `step_unsupportedOpcode`. -/
theorem opcodeMapIsComplete : Obligations.OpcodeMapIsComplete := by
  refine ⟨rfl, rfl, rfl, rfl, rfl, rfl, rfl, rfl, rfl, rfl, fun b hxor himul hmov => ?_,
    unsupportedOpcode_count, fun s b rest hs hin hb => ?_⟩
  · exact (opcodeOf_eq_none_iff b).2 ⟨hmov, hxor, himul⟩
  · exact ⟨_, step_unsupportedOpcode hs hin hb, rfl, rfl⟩

/-- Settles O5: the split at 0xC0 by `isRegisterForm_iff`, and below it the error by
`step_memoryForm`. -/
theorem addressingMapIsComplete : Obligations.AddressingMapIsComplete := by
  refine ⟨isRegisterForm_iff, fun b => ⟨regField_toNat b, rmField_toNat b⟩,
    fun s b rest hrun hd hin hb => ?_⟩
  have hmem : isRegisterForm b = false := by
    rw [Bool.eq_false_iff, Ne, isRegisterForm_iff]
    bv_omega
  exact ⟨_, step_memoryForm hrun hd hin hmem, rfl, rfl⟩

end Machine
end Sys2Proof
end

section
/-! PROOFS. The step of an opcode byte, by the row of the opcode map that it selects (R112 to
R115). -/

namespace Sys2Proof

/-- R81, R89: the prefix `10111` selects MOV, and bits 2:0 its register. -/
theorem opcodeOf_of_movPrefix {b : Byte} (h : b.extractLsb' 3 5 = 0b10111#5) :
    opcodeOf b = some (.mov (Reg.ofField (b.extractLsb' 0 3))) := by
  rw [opcodeOf, if_pos h]

namespace Machine

/-- R110: at a boundary the byte is taken as an opcode, its position counted. -/
theorem step_opcodeByte {s : State} {b : Byte} {rest : List Event} (hs : s.AtBoundary)
    (hin : s.inputs = .byte b :: rest) :
    step s = .next
      (({ s with inputs := rest, pos := s.pos + 1 } : State).takeOpcode s.pos b) := by
  obtain ⟨hrun, hd⟩ := hs
  rw [step_byte_running hrun hin, takeRunning_operandByte (by exact hd)]

theorem takeOpcode_of_mov {b : Byte} {rd : Reg} (h : opcodeOf b = some (.mov rd)) (s : State)
    (p : Nat) : s.takeOpcode p b = s.beginMov rd := by
  simp [State.takeOpcode, h]

theorem takeOpcode_of_xor {b : Byte} (h : opcodeOf b = some .xor) (s : State) (p : Nat) :
    s.takeOpcode p b = s.beginXor b := by
  simp [State.takeOpcode, h]

theorem takeOpcode_of_imul {b : Byte} (h : opcodeOf b = some .imul) (s : State) (p : Nat) :
    s.takeOpcode p b = s.beginImul b := by
  simp [State.takeOpcode, h]

/-- Settles O10: the prefix selects MOV, whose row of the map is R112. -/
theorem movOpcodeByteBeginsMov : Obligations.MovOpcodeByteBeginsMov := by
  intro s b rest hs hin hb
  rw [step_opcodeByte hs hin, takeOpcode_of_mov (opcodeOf_of_movPrefix hb)]
  rfl

/-- Settles O11: the rows of R113 and R114, whose flags are bits 0 and 1 of the opcode byte. -/
theorem twoOperandOpcodeBytesBegin : Obligations.TwoOperandOpcodeBytesBegin := by
  refine fun s rest hs => ⟨fun hin => ?_, fun hin => ?_⟩
  · rw [step_opcodeByte hs hin, takeOpcode_of_xor opcodeOf_xor, State.beginXor, widthBit_xor,
      directionBit_xor]
  · rw [step_opcodeByte hs hin, takeOpcode_of_imul opcodeOf_imul, State.beginImul, widthBit_imul,
      directionBit_imul]

/-- Settles O12: the bytes outside the map's rows (`opcodeOf_eq_none_iff`) take the error, and
0xFF is one of them. -/
theorem unsupportedOpcodeEndsTheSession : Obligations.UnsupportedOpcodeEndsTheSession := by
  refine ⟨fun s b rest hs hin hmov hxor himul => ?_, unsupportedOpcode_count, rfl, ?_⟩
  · have hnone : opcodeOf b = none :=
      (opcodeOf_eq_none_iff b).2 ⟨mt (movPrefix_iff b).2 hmov, hxor, himul⟩
    exact step_unsupportedOpcode hs hin hnone
  · exact step_unsupportedOpcode ⟨rfl, rfl⟩ rfl rfl

end Machine
end Sys2Proof
end

section
/-! PROOFS. The step of an addressing byte (R116 to R119). -/

namespace Sys2Proof

/-- R85, R90: the register form is `mod = 0b11`. -/
theorem isRegisterForm_iff_mod (b : Byte) :
    isRegisterForm b = true ↔ b.extractLsb' 6 2 = 0b11#2 :=
  beq_iff_eq

namespace Machine

/-- R118, R119: the step of a register-form addressing byte. -/
theorem step_registerForm {s : State} {b : Byte} {rest : List Event} (hrun : s.status = .running)
    (hd : s.dstate = .addressingByte) (hin : s.inputs = .byte b :: rest)
    (hb : isRegisterForm b = true) :
    step s =
      (({ s with inputs := rest, pos := s.pos + 1 } : State).addressed b).completeIfLast := by
  rw [step_byte_running hrun hin, takeRunning_registerForm (by exact hd) _ hb]

/-- Settles O13: any other `mod` takes the error of `step_memoryForm`, and so does the second of
the bytes `31 12`. -/
theorem memoryFormEndsTheSession : Obligations.MemoryFormEndsTheSession := by
  refine ⟨fun s b rest hrun hd hin hb => ?_, rfl, ?_⟩
  · have hmem : isRegisterForm b = false := by
      rwa [Bool.eq_false_iff, Ne, isRegisterForm_iff_mod]
    exact step_memoryForm hrun hd hin hmem
  · exact ⟨_, (runSteps_succ 1 (step_opcodeByte ⟨rfl, rfl⟩ rfl)).trans
      (runSteps_succ 0 (step_memoryForm rfl rfl rfl rfl)), rfl⟩

/-- Settles O14: the operands are those of `addressed`, and `completeIfLast` tests the count. -/
theorem registerFormAssignsOperands : Obligations.RegisterFormAssignsOperands := by
  intro s b rest hrun hd hin hb
  rw [step_registerForm hrun hd hin ((isRegisterForm_iff_mod b).2 hb)]
  rfl

end Machine
end Sys2Proof
end

section
/-! PROOFS. The step of an immediate byte, by the row of R124's order that it takes (R120 to
R123). -/

namespace Sys2Proof

/-- R87: one fold keeps the high byte of what stood there, as the low byte. -/
theorem foldByte_eq_imm16 (v : Word) (b : Byte) : foldByte v b = imm16 (v.extractLsb' 8 8) b := by
  have hkept : v >>> 8 = (v.extractLsb' 8 8).setWidth 16 := by
    rw [← BitVec.toNat_inj, BitVec.toNat_ushiftRight, BitVec.toNat_setWidth,
      BitVec.extractLsb'_toNat, Nat.shiftRight_eq_div_pow]
    omega
  rw [imm16_eq_or, ← hkept, foldByte]

namespace Machine

/-- R122: an immediate byte of the 8-bit row. -/
theorem immediated_eightBit {s : State} (h : s.pending.tertiary = false)
    (ho : s.pending.operandSizeFlag = false) (b : Byte) :
    s.immediated b = { s with
      regs := s.regs.set s.pending.destReg (b.setWidth 16)
      pending := { s.pending with expect := 0#2 } } := by
  simp [State.immediated, h, ho, State.setDestByte, State.writeReg, State.setExpect]

/-- R120 to R123: the step of an immediate byte. -/
theorem step_immediateByte {s : State} {b : Byte} {rest : List Event} (hrun : s.status = .running)
    (hd : s.dstate = .immediateByte) (hin : s.inputs = .byte b :: rest) :
    step s =
      (({ s with inputs := rest, pos := s.pos + 1 } : State).immediated b).completeIfLast := by
  rw [step_byte_running hrun hin, takeRunning_immediateByte (by exact hd)]

/-- R123: where more is expected after an immediate byte, the decoder state stays. -/
theorem completeIfLast_of_immediateByte {s : State} (hd : s.dstate = .immediateByte) :
    s.completeIfLast = if s.pending.expect = 0#2 then s.complete else .next s := by
  rw [State.completeIfLast, ← hd]

/-- Settles O15: an IMUL's row is `immediated_imul`; the folds are those of R87. -/
theorem imulImmediateFoldsIntoShadow : Obligations.ImulImmediateFoldsIntoShadow := by
  refine ⟨fun s b rest hrun hd hter hin => ?_,
    fun v b0 b1 => ⟨foldByte_eq_imm16 v b0, foldByte_foldByte v b0 b1⟩, rfl, rfl⟩
  rw [step_immediateByte hrun hd hin, immediated_imul (by exact hter),
    completeIfLast_of_immediateByte (by exact hd)]
  rfl

/-- Settles O16: a MOV's row is `immediated_mov`; the folds are those of R87. -/
theorem movImmediateFoldsIntoItsRegister : Obligations.MovImmediateFoldsIntoItsRegister := by
  refine ⟨fun s b rest hrun hd hter hsize hin => ?_,
    fun v b0 b1 => ⟨foldByte_eq_imm16 v b0, foldByte_foldByte v b0 b1⟩, rfl, rfl⟩
  rw [step_immediateByte hrun hd hin, immediated_mov (by exact hter) (by exact hsize),
    completeIfLast_of_immediateByte (by exact hd)]
  rfl

/-- Settles O17: the row is `immediated_eightBit`, which leaves 0 expected; the invariant has
`operand_size_flag` set at every immediate byte. -/
theorem eightBitRowIsUnreachable : Obligations.EightBitRowIsUnreachable := by
  refine ⟨fun s b rest hrun hd hter hsize hin => ?_, fun s hinv hd => ?_⟩
  · rw [step_immediateByte hrun hd hin, immediated_eightBit (by exact hter) (by exact hsize),
      completeIfLast_of_zero rfl]
  · obtain ⟨hdec, -⟩ := hinv
    obtain ⟨hsize, -⟩ := hdec.of_immediateByte hd
    exact .inr hsize

end Machine
end Sys2Proof
end

section
/-! PROOFS. Completion within the step of the last byte (R125), and the byte position along every
step (R40, R111). -/

namespace Sys2Proof.Machine

/-- Settles O18: the step of a completing byte is completion, which runs the descriptor. -/
theorem completingStepRunsTheDescriptor : Obligations.CompletingStepRunsTheDescriptor := by
  intro s b rest i hrun hin hc hi
  obtain ⟨t, hexec, hdone⟩ := complete_next hi
  exact ⟨t, hexec, (step_completing hrun hin hc).trans hdone⟩

/-! ### The byte position -/

@[simp] theorem takeOpcode_pos (s : State) (p : Nat) (b : Byte) :
    (s.takeOpcode p b).pos = s.pos := by
  unfold State.takeOpcode
  split <;> rfl

@[simp] theorem endRunning_pos (s : State) : s.endRunning.pos = s.pos := by
  unfold State.endRunning
  split <;> rfl

/-- R111: an operand byte is counted. -/
theorem operandTaken_pos {s : State} (hd : s.dstate ≠ .operandByte) (b : Byte) :
    (s.operandTaken b).pos = s.pos + 1 := by
  cases hs : s.dstate with
  | operandByte => exact absurd hs hd
  | addressingByte => simp [State.operandTaken, hs]
  | immediateByte =>
    simp only [State.operandTaken, hs]
    rw [immediated_frame]
    rfl

/-- The executor does not move the position. -/
theorem exec_pos {i : Instr} {s t : State} (h : exec i s = .next t) : t.pos = s.pos := by
  rw [exec_frame h]

/-- Settles O48, by what the step did: a byte taken while running is counted where it is taken,
and nothing after that, an error or a completion, moves the position. -/
theorem positionCountsConsumedBytes : Obligations.PositionCountsConsumedBytes := by
  intro s t hstep
  cases step_cases hstep with
  | idle h ht => simp [h, ht]
  | ignored e rest h hs he ht =>
    cases e with
    | byte b => simp [h, hs, ht]
    | endOfStream => simp [h, ht]
    | reset => exact absurd rfl he
  | reset rest h ht => simp [h, ht, State.resetBlock, State.reset]
  | ended rest h hs ht => simp [h, ht]
  | opcode b rest h hs hd ht => simp [h, hs, ht]
  | memoryForm b rest h hs hd hb ht => simp [h, hs, ht]
  | goesOn b rest u h hs hu hx ht =>
    obtain ⟨hd, -, rfl⟩ := eq_operandTaken_of_counted hu
    have hpos : t.pos = s.pos + 1 := by
      rw [ht]
      exact operandTaken_pos (s := { s with inputs := rest }) hd b
    simp [h, hs, hpos]
  | completes b rest u v i h hs hu hx hi hv ht =>
    obtain ⟨hd, -, rfl⟩ := eq_operandTaken_of_counted hu
    have hpos : t.pos = s.pos + 1 := by
      rw [ht, State.endInstruction_pos, exec_pos hv]
      exact operandTaken_pos (s := { s with inputs := rest }) hd b
    simp [h, hs, hpos]

end Sys2Proof.Machine
end

section
/-! PROOFS. XOR (R141) and MOV (R142) as whole instructions: what they write, their encodings, and
the sessions that end before they execute. -/

namespace Sys2Proof

/-- R85: the register-form addressing byte as an OR of its fields in their places. -/
theorem addressingByte_eq_or (reg rm : Reg) :
    addressingByte reg rm =
      0xC0#8 ||| (reg.field.setWidth 8 <<< 3) ||| rm.field.setWidth 8 := by
  cases reg <;> cases rm <;> rfl

/-- R81: the MOV opcode byte is `B8 + rd`. -/
theorem movOpcode_eq_or (rd : Reg) : movOpcode rd = 0xB8#8 ||| rd.field.setWidth 8 := by
  cases rd <;> rfl

namespace Machine

/-! ### A memory form after the opcode byte -/

/-- R113, R114: the opcode bytes of XOR and IMUL ask for an addressing byte and write no
register. -/
theorem step_twoOperandOpcode {s : State} {b : Byte} {rest : List Event} (hs : s.AtBoundary)
    (hin : s.inputs = .byte b :: rest) (hb : opcodeOf b = some .xor ∨ opcodeOf b = some .imul) :
    ∃ u, step s = .next u ∧ u.status = .running ∧ u.dstate = .addressingByte ∧
      u.inputs = rest ∧ u.regs = s.regs := by
  rw [step_opcodeByte hs hin]
  obtain ⟨hrun, -⟩ := hs
  obtain hxor | himul := hb
  · exact ⟨_, congrArg _ (takeOpcode_of_xor hxor _ _), hrun, rfl, rfl, rfl⟩
  · exact ⟨_, congrArg _ (takeOpcode_of_imul himul _ _), hrun, rfl, rfl, rfl⟩

/-- R117, R202: where their addressing byte is a memory form, neither of the two executes. -/
theorem runSteps_twoOperand_memoryForm {s : State} {op b : Byte} {rest : List Event}
    (hs : s.AtBoundary) (hin : s.inputs = .byte op :: .byte b :: rest)
    (hop : opcodeOf op = some .xor ∨ opcodeOf op = some .imul) (hb : isRegisterForm b = false) :
    ∃ u, runSteps 2 s = .next u ∧ u.regs = s.regs ∧ u.status = .error ∧
      u.err.code = .unsupportedAddressingMode := by
  obtain ⟨u, hstep, hrun, hd, hrest, hregs⟩ := step_twoOperandOpcode hs hin hop
  exact ⟨_, (runSteps_succ 1 hstep).trans (runSteps_succ 0 (step_memoryForm hrun hd hrest hb)),
    hregs, rfl, rfl⟩

/-- Settles O31: the executor's one write is `writeReg` of the exclusive or; the memory form ends
the session before it (`runSteps_twoOperand_memoryForm`). -/
theorem xorWritesTheExclusiveOr : Obligations.XorWritesTheExclusiveOr := by
  intro rd rs s
  have hwrite := s.readReg_writeReg_same rd (s.readReg rd ^^^ s.readReg rs)
  refine ⟨_, exec_xor rd rs s, hwrite, fun hsame => ?_,
    fun r hr => s.readReg_writeReg_other hr _, rfl, ?_, fun b rest hs hin hb => ?_⟩
  · rw [hwrite, hsame, BitVec.xor_self]
  · rw [encode, addressingByte_eq_or]
  · exact runSteps_twoOperand_memoryForm hs hin (.inl opcodeOf_xor) hb

/-! ### A MOV cut off after one immediate byte -/

/-- R203: the step of an `End` inside an instruction. -/
theorem step_endInside {s : State} {rest : List Event} (hrun : s.status = .running)
    (hd : s.dstate ≠ .operandByte) (hin : s.inputs = .endOfStream :: rest) :
    step s = .next
      (({ s with inputs := rest } : State).raise .truncatedInstruction s.pos 0x00#8) := by
  rw [step_end hin]
  cases hs : s.dstate with
  | operandByte => exact absurd hs hd
  | addressingByte => simp [State.endStream, State.endRunning, hrun]
  | immediateByte => simp [State.endStream, State.endRunning, hrun]

/-- A MOV between its two immediate bytes (R235): begun at the boundary `s`, its opcode byte and
the first immediate byte counted, that byte folded into its register, and `rest` still presented. -/
def State.halfFolded (s : State) (rd : Reg) (b0 : Byte) (rest : List Event) : State :=
  { s.beginMov rd with
    regs := s.regs.set rd (foldByte (s.regs.get rd) b0)
    pending := { (s.beginMov rd).pending with expect := 2#2 - 1#2 }
    pos := s.pos + 2
    inputs := rest }

@[simp] theorem halfFolded_regs (s : State) (rd : Reg) (b0 : Byte) (rest : List Event) :
    (s.halfFolded rd b0 rest).regs = s.regs.set rd (foldByte (s.regs.get rd) b0) := rfl

@[simp] theorem halfFolded_dstate (s : State) (rd : Reg) (b0 : Byte) (rest : List Event) :
    (s.halfFolded rd b0 rest).dstate = .immediateByte := rfl

@[simp] theorem halfFolded_status (s : State) (rd : Reg) (b0 : Byte) (rest : List Event) :
    (s.halfFolded rd b0 rest).status = s.status := rfl

@[simp] theorem halfFolded_inputs (s : State) (rd : Reg) (b0 : Byte) (rest : List Event) :
    (s.halfFolded rd b0 rest).inputs = rest := rfl

/-- R112, R121: the two steps of a MOV's opcode byte and first immediate byte. -/
theorem runSteps_halfFolded {s : State} {rd : Reg} {b0 : Byte} {rest : List Event}
    (hs : s.AtBoundary) (hin : s.inputs = .byte (movOpcode rd) :: .byte b0 :: rest) :
    runSteps 2 s = .next (s.halfFolded rd b0 rest) := by
  have hopcode := step_opcodeByte hs hin
  rw [takeOpcode_of_mov (opcodeOf_movOpcode rd)] at hopcode
  obtain ⟨hrun, -⟩ := hs
  have hmore : (2#2 - 1#2 : BitVec 2) ≠ 0#2 := by decide
  refine (runSteps_succ 1 hopcode).trans (runSteps_succ 0 ?_)
  rw [step_immediateByte (by exact hrun) rfl rfl, immediated_mov rfl rfl,
    completeIfLast_of_more (by exact hmore)]
  rfl

/-- Settles O33: the executor's one write is `writeReg` of the immediate; a cut-off MOV stops at
`runSteps_halfFolded`, where `End` takes the error of `step_endInside`. -/
theorem movWritesTheImmediate : Obligations.MovWritesTheImmediate := by
  intro rd imm s
  refine ⟨_, exec_mov rd imm s, s.readReg_writeReg_same rd imm,
    fun r hr => s.readReg_writeReg_other hr imm, rfl, fun hheld => ?_, ?_,
    fun b0 rest hs hin => ?_⟩
  · rw [← hheld, State.writeReg_readReg]
  · rw [encode, movOpcode_eq_or, immLow, immHigh]
  · have hhalf := runSteps_halfFolded hs hin
    obtain ⟨hrun, -⟩ := hs
    have hend := step_endInside (by simpa using hrun) (by simp)
      (halfFolded_inputs s rd b0 (.endOfStream :: rest))
    exact ⟨_, (runSteps_add 2 1 hhalf).trans (runSteps_succ 0 hend), rfl, rfl, by simp⟩

end Machine
end Sys2Proof
end

section
/-! PROOFS. The multiply against exact arithmetic: the sign correction (R178, R185) and the signed
product (R171). -/

namespace Sys2Proof.Machine

/-- R178, R185: the half-by-half negation is the 32-bit one. The low half's increment carries into
the high half exactly when `~lo` is all ones, that is when `lo` is 0. -/
theorem pair_negateHalves (hi lo : Word) :
    pair (negateHalves hi lo).1 (negateHalves hi lo).2 = ~~~(pair hi lo) + 1#32 := by
  apply BitVec.eq_of_toNat_eq
  have := hi.isLt
  have := lo.isLt
  unfold negateHalves
  split
  · next hcarry =>
    have : lo.toNat = 0 := by bv_omega
    simp only [pair_toNat, BitVec.toNat_add, BitVec.toNat_not, BitVec.toNat_ofNat]
    omega
  · next hcarry =>
    have : lo.toNat ≠ 0 := by bv_omega
    simp only [pair_toNat, BitVec.toNat_add, BitVec.toNat_not, BitVec.toNat_ofNat]
    omega

/-- Settles O40 by `pair_negateHalves`. -/
theorem signCorrectionIsNegation : Obligations.SignCorrectionIsNegation :=
  fun hi lo => ⟨pair_negateHalves hi lo, rfl⟩

/-- The sign-corrected halves as one value: the accumulator, negated where the sign says so. -/
theorem pair_signCorrect (sign : Bool) (hi lo : Word) :
    pair (signCorrect sign hi lo).1 (signCorrect sign hi lo).2 =
      if sign then -(pair hi lo) else pair hi lo := by
  cases sign with
  | false => rfl
  | true => exact (pair_negateHalves hi lo).trans (BitVec.neg_eq_not_add _).symm

/-- R173: a word's integer value is its magnitude, with the sign of bit 15. -/
theorem toInt_eq_magnitude (v : Word) :
    v.toInt = if v.getLsbD 15 then -((magnitude v).toNat : Int) else (magnitude v).toNat := by
  have hsign : v.getLsbD 15 = v.msb := (BitVec.msb_eq_getLsbD_last (w := 16) v).symm
  rw [magnitude, hsign]
  by_cases hneg : v.msb = true
  · rw [if_pos hneg, if_pos hneg, ← BitVec.neg_eq_not_add]
    exact BitVec.toInt_eq_neg_toNat_neg_of_msb_true hneg
  · rw [if_neg hneg, if_neg hneg]
    exact BitVec.toInt_eq_toNat_of_msb (by simpa using hneg)

/-- The sign rule of R172: the signed product is the product of the magnitudes, with the sign
`productSign`. -/
theorem toInt_mul_toInt_eq_magnitudes (m s : Word) :
    m.toInt * s.toInt =
      if productSign m s then -(((magnitude m).toNat * (magnitude s).toNat : Nat) : Int)
      else ((magnitude m).toNat * (magnitude s).toNat : Nat) := by
  rw [toInt_eq_magnitude m, toInt_eq_magnitude s, productSign]
  cases m.getLsbD 15 <;> cases s.getLsbD 15 <;> simp

/-- R171: the multiply answers the signed product, modulo 2^32. -/
theorem pair_imul16 (m s : Word) :
    pair (imul16 m s).hi (imul16 m s).lo = BitVec.ofInt 32 (m.toInt * s.toInt) := by
  rw [imul16, pair_signCorrect, mulUnsigned_sum, toInt_mul_toInt_eq_magnitudes]
  split
  · rw [BitVec.ofInt_neg, BitVec.ofInt_natCast]
  · rw [BitVec.ofInt_natCast]

/-- R171: the range of the signed product. Its upper end is the library's bound. Its lower end lies
where the two corner products `(m + 2^15) * (s + 2^15)` and `(2^15 - 1 - m) * (2^15 - 1 - s)`, which
are never negative, are both 0. -/
theorem toInt_mul_toInt_bounds (m s : Word) :
    -1073709056 ≤ m.toInt * s.toInt ∧ m.toInt * s.toInt ≤ 1073741824 := by
  have hm := m.le_toInt
  have hm' := m.toInt_lt
  have hs := s.le_toInt
  have hs' := s.toInt_lt
  have hlow : 0 ≤ (m.toInt + 32768) * (s.toInt + 32768) := mul_nonneg (by omega) (by omega)
  have hhigh : 0 ≤ (32767 - m.toInt) * (32767 - s.toInt) := mul_nonneg (by omega) (by omega)
  exact ⟨by linarith only [hlow, hhigh], BitVec.toInt_mul_toInt_le⟩

/-- Settles O37: the value is `pair_imul16`, and within the bounds of `toInt_mul_toInt_bounds` the
modulus changes nothing. -/
theorem multiplyIsTheExactSignedProduct : Obligations.MultiplyIsTheExactSignedProduct := by
  intro m s
  have hvalue := pair_imul16 m s
  obtain ⟨hlower, hupper⟩ := toInt_mul_toInt_bounds m s
  have hint : (pair (imul16 m s).hi (imul16 m s).lo).toInt = m.toInt * s.toInt := by
    rw [hvalue, BitVec.toInt_ofInt_eq_self (by decide) (by omega) (by omega)]
  refine ⟨hvalue.trans (BitVec.ofInt_mul _ _), hint, hlower, hupper, fun hm hs => ?_⟩
  have hsmall : m.toNat * s.toNat ≤ 0x7FFF * 0x7FFF := Nat.mul_le_mul hm hs
  rw [hvalue, BitVec.toInt_eq_toNat_of_lt (by omega), BitVec.toInt_eq_toNat_of_lt (by omega),
    ← Int.natCast_mul, BitVec.ofInt_natCast, BitVec.toNat_ofNat, Nat.mod_eq_of_lt (by omega)]

end Sys2Proof.Machine
end

section
/-! PROOFS. The `End` event of a running session (R203, R210) and the result it leaves (R211). -/

namespace Sys2Proof.Machine

/-- R210: the step of an `End` at an instruction boundary. -/
theorem step_endAtBoundary {s : State} {rest : List Event} (hs : s.AtBoundary)
    (hin : s.inputs = .endOfStream :: rest) :
    step s = .next { s with inputs := rest, status := .done } := by
  obtain ⟨hrun, hd⟩ := hs
  rw [step_end hin]
  simp [State.endStream, State.endRunning, hrun, hd]

/-- R211: the result of a run over with Done. -/
theorem result_of_done {s : State} (h : s.status = .done) :
    s.result = some (s.readReg .dx, s.readReg .ax) := by
  rw [State.result, h]

/-- R231: the reset state, whatever is presented to it, is an instruction boundary. -/
theorem atBoundary_reset (events : List Event) :
    State.AtBoundary { State.reset with inputs := events } := ⟨rfl, rfl⟩

/-- Settles O22: inside an instruction by `step_endInside`, at a boundary by `step_endAtBoundary`;
the empty stream is an `End` at the boundary of the reset state, where the registers are zero. -/
theorem endOfStreamEndsTheSession : Obligations.EndOfStreamEndsTheSession := by
  refine ⟨fun s rest => step_endInside, fun s rest hs hin => ⟨step_endAtBoundary hs hin, ?_⟩,
    ?emptyStream⟩
  · exact ⟨(outputs_outValid _).mpr rfl, rfl, rfl⟩
  case emptyStream =>
    refine ⟨_, step_endAtBoundary (atBoundary_reset _) rfl, rfl, (result_of_done rfl).trans ?_⟩
    exact congrArg some (Prod.ext (readReg_reset .dx) (readReg_reset .ax))

end Sys2Proof.Machine
end

section
/-! PROOFS. The decoder over byte lists and the encoder (R80 to R94) are inverse to each other. -/

namespace Sys2Proof

@[simp] theorem decode_xorOpcode (rest : List Byte) :
    decode (0x31#8 :: rest) = decodeXor 0x31#8 rest := by
  simp [decode]

/-- R82: the byte after an XOR's opcode byte. -/
@[simp] theorem decodeXor_addressingByte (rd rs : Reg) (rest : List Byte) :
    decodeXor 0x31#8 (addressingByte rs rd :: rest) = .instr (.xor rd rs) rest := by
  simp [decodeXor]

/-- R81: the two bytes after a MOV's opcode byte. -/
@[simp] theorem decodeMov_immBytes (rd : Reg) (imm : Word) (rest : List Byte) :
    decodeMov rd (immLow imm :: immHigh imm :: rest) = .instr (.mov rd imm) rest := by
  simp [decodeMov]

@[simp] theorem encode_length (i : Instr) : (encode i).length = i.length := by
  cases i <;> rfl

/-- R80 to R87: the encoding decodes to its instruction, whatever follows it. -/
theorem decode_encode (i : Instr) (rest : List Byte) :
    decode (encode i ++ rest) = .instr i rest := by
  cases i with
  | xor rd rs => exact (decode_xorOpcode _).trans (decodeXor_addressingByte rd rs rest)
  | mov rd imm => exact (decode_movOpcode rd _).trans (decodeMov_immBytes rd imm rest)
  | imul rh rl imm =>
    refine (decode_imulOpcode _).trans ((decodeImul_addressingByte rh rl _ _ rest).trans ?_)
    rw [imm16_immLow_immHigh]

/-- Settles O2 by `decode_encode` and `encode_length`. -/
theorem decodeOfEncodeIsTheInstruction : Obligations.DecodeOfEncodeIsTheInstruction :=
  fun i rest => ⟨decode_encode i rest, encode_length i⟩

/-! ### What an accepted list of bytes looks like -/

/-- R82, R90: an XOR's second byte is the addressing byte of its registers. -/
theorem decodeXor_eq_instr {bytes rest : List Byte} {i : Instr}
    (h : decodeXor 0x31#8 bytes = .instr i rest) : 0x31#8 :: bytes = encode i ++ rest := by
  unfold decodeXor at h
  split at h
  · split at h
    · next hform =>
      cases h
      simp [encode, addressingByte_of_registerForm hform]
    · cases h
  · cases h

/-- R81, R87: a MOV's opcode byte is followed by the two bytes of its immediate. -/
theorem decodeMov_eq_instr {rd : Reg} {bytes rest : List Byte} {i : Instr}
    (h : decodeMov rd bytes = .instr i rest) : movOpcode rd :: bytes = encode i ++ rest := by
  unfold decodeMov at h
  split at h
  · cases h
    simp [encode]
  · cases h
  · cases h

/-- R83, R87, R90: an IMUL's opcode byte is followed by the addressing byte of its registers and
the two bytes of its immediate. -/
theorem decodeImul_eq_instr {bytes rest : List Byte} {i : Instr}
    (h : decodeImul 0x69#8 bytes = .instr i rest) : 0x69#8 :: bytes = encode i ++ rest := by
  unfold decodeImul at h
  split at h
  · split at h
    · next hform =>
      split at h
      · cases h
        simp [encode, addressingByte_of_registerForm hform]
      · cases h
      · cases h
    · cases h
  · cases h

/-- R89, R90, R94: the accepted bytes are the encoding of the answer. -/
theorem eq_encode_of_decode {bytes rest : List Byte} {i : Instr}
    (h : decode bytes = .instr i rest) : bytes = encode i ++ rest := by
  unfold decode at h
  split at h
  · cases h
  · split at h
    · next hop => rw [eq_movOpcode_of_opcodeOf hop]; exact decodeMov_eq_instr h
    · next hop => cases eq_xor_of_opcodeOf hop; exact decodeXor_eq_instr h
    · next hop => cases eq_imul_of_opcodeOf hop; exact decodeImul_eq_instr h
    · cases h

/-- Settles O3 by `eq_encode_of_decode`. -/
theorem decodedBytesAreTheEncoding : Obligations.DecodedBytesAreTheEncoding :=
  fun _ _ _ => eq_encode_of_decode

/-! ### Words and fields written out -/

/-- Settles O1: each word by evaluation of the decoder. -/
theorem specWordsDecodeAsWritten : Obligations.SpecWordsDecodeAsWritten :=
  ⟨rfl, rfl, rfl, rfl, rfl, rfl, rfl, rfl⟩

/-- Settles O6: the table by evaluation, the two inverses by the laws of the fields. -/
theorem registerFieldSelectsByIndex : Obligations.RegisterFieldSelectsByIndex :=
  ⟨rfl, rfl, Reg.field_ofField, Reg.ofField_field, rfl, rfl, rfl⟩

/-- Settles O30: R30's, R31's, R41's and R200's codes, each a row of a `code` function. -/
theorem fieldEncodings : Obligations.FieldEncodings := ⟨rfl, rfl, rfl, rfl⟩

end Sys2Proof
end

section
/-! PROOFS. The machine's invariant (R30 to R35, R42, R200 to R210): it holds at reset, every step
keeps it, and from a state that has it every step answers a next state. -/

namespace Sys2Proof.Machine

/-! ### What an operand byte leaves alone -/

theorem operandTaken_of_addressing {s : State} (hd : s.dstate = .addressingByte) (b : Byte) :
    s.operandTaken b = s.advancePos.addressed b := by
  simp only [State.operandTaken, hd]

theorem operandTaken_of_immediate {s : State} (hd : s.dstate = .immediateByte) (b : Byte) :
    s.operandTaken b = s.advancePos.immediated b := by
  simp only [State.operandTaken, hd]

/-- R111, R118 to R123: an operand byte counts itself and changes registers and record only. -/
theorem operandTaken_frame {s : State} (hd : s.dstate ≠ .operandByte) (b : Byte) :
    s.operandTaken b = { s with
      pos := s.pos + 1
      regs := (s.operandTaken b).regs
      pending := (s.operandTaken b).pending } := by
  cases hs : s.dstate with
  | operandByte => exact absurd hs hd
  | addressingByte =>
    rw [operandTaken_of_addressing hs, ← hs]
    rfl
  | immediateByte =>
    rw [operandTaken_of_immediate hs, immediated_frame, ← hs]
    rfl

/-- R118 to R123: of the record, an operand byte changes the registers named, `shadow` and
`expect`. -/
theorem operandTaken_pending (s : State) (b : Byte) :
    (s.operandTaken b).pending = { s.pending with
      destReg := (s.operandTaken b).pending.destReg
      srcReg := (s.operandTaken b).pending.srcReg
      shadow := (s.operandTaken b).pending.shadow
      expect := (s.operandTaken b).pending.expect } := by
  unfold State.operandTaken
  split
  · rfl
  · rfl
  · rw [immediated_frame]; rfl

@[simp] theorem operandTaken_operandSizeFlag (s : State) (b : Byte) :
    (s.operandTaken b).pending.operandSizeFlag = s.pending.operandSizeFlag := by
  rw [operandTaken_pending]

@[simp] theorem operandTaken_directionFlag (s : State) (b : Byte) :
    (s.operandTaken b).pending.directionFlag = s.pending.directionFlag := by
  rw [operandTaken_pending]

@[simp] theorem operandTaken_tertiary (s : State) (b : Byte) :
    (s.operandTaken b).pending.tertiary = s.pending.tertiary := by
  rw [operandTaken_pending]

/-! ### The parts of the invariant -/

/-- An instruction's class is set from its opcode byte to its completion. -/
theorem State.DecoderInv.class_ne_none {s : State} (h : s.DecoderInv)
    (hd : s.dstate ≠ .operandByte) : s.pending.opcodeClass ≠ .none := by
  cases hs : s.dstate with
  | operandByte => exact absurd hs hd
  | addressingByte =>
    obtain ⟨-, -, ⟨hc, -⟩ | ⟨hc, -⟩⟩ := h.of_addressingByte hs <;> simp [hc]
  | immediateByte =>
    obtain ⟨-, -, ⟨hc, -⟩ | ⟨hc, -⟩, -⟩ := h.of_immediateByte hs <;> simp [hc]

/-- The decoder's invariant reads the decoder state and the record only. -/
theorem State.DecoderInv.congr {s t : State} (h : s.DecoderInv) (hd : t.dstate = s.dstate)
    (hp : t.pending = s.pending) : t.DecoderInv := by
  unfold State.DecoderInv at h ⊢
  rwa [hd, hp]

/-- While the session runs, the error record is the one of reset. -/
theorem State.ErrorInv.err_of_running {s : State} (h : s.ErrorInv) (hs : s.status = .running) :
    s.err = ErrorRecord.reset := by
  simpa only [State.ErrorInv, hs] using h

theorem State.ErrorInv.of_running {s : State} (hs : s.status = .running)
    (h : s.err = ErrorRecord.reset) : s.ErrorInv := by
  simpa only [State.ErrorInv, hs] using h

/-- R112 to R115: an opcode byte establishes the invariant of the next byte's state, or takes its
error at the position before it. -/
theorem takeOpcode_inv {s : State} (h : s.Inv) (hs : s.status = .running)
    (hd : s.dstate = .operandByte) (p : Nat) (hp : p + 1 = s.pos) (b : Byte) :
    (s.takeOpcode p b).Inv := by
  obtain ⟨hdec, herr⟩ := h
  have hclear := herr.err_of_running hs
  unfold State.takeOpcode
  split
  · exact ⟨⟨rfl, rfl, .inl ⟨rfl, rfl⟩, .inr rfl⟩, .of_running hs hclear⟩
  · next hop =>
    cases eq_xor_of_opcodeOf hop
    exact ⟨⟨rfl, rfl, .inl ⟨rfl, rfl, rfl⟩⟩, .of_running hs hclear⟩
  · next hop =>
    cases eq_imul_of_opcodeOf hop
    exact ⟨⟨rfl, rfl, .inr ⟨rfl, rfl, rfl⟩⟩, .of_running hs hclear⟩
  · next hop => exact ⟨hdec.congr rfl rfl, .inl ⟨rfl, hd, hop, hp⟩⟩

/-- R203, R210: the end of the stream keeps the invariant. -/
theorem endRunning_inv {s : State} (h : s.Inv) (hs : s.status = .running) : s.endRunning.Inv := by
  obtain ⟨hdec, herr⟩ := h
  unfold State.endRunning
  split
  · next hd => exact ⟨hdec.congr rfl rfl, herr.err_of_running hs, hd⟩
  · next hd => exact ⟨hdec.congr rfl rfl, .inr (.inr ⟨rfl, by simp [hd], rfl, rfl⟩)⟩
  · next hd => exact ⟨hdec.congr rfl rfl, .inr (.inr ⟨rfl, by simp [hd], rfl, rfl⟩)⟩

/-- R119, R123: after an operand byte with more to come, one or two bytes are left, all of them
immediate bytes. -/
theorem operandTaken_goesOn_decoderInv {s : State} (h : s.DecoderInv)
    (hd : s.dstate ≠ .operandByte) {b : Byte} (hx : (s.operandTaken b).pending.expect ≠ 0#2) :
    ({ s.operandTaken b with dstate := .immediateByte } : State).DecoderInv := by
  have hcount := operandTaken_expect h hd b
  simp only [State.DecoderInv, operandTaken_operandSizeFlag, operandTaken_directionFlag,
    operandTaken_opcodeClass, operandTaken_tertiary]
  cases hs : s.dstate with
  | operandByte => exact absurd hs hd
  | addressingByte =>
    obtain ⟨hsize, hdir, ⟨-, -, he⟩ | ⟨hclass, hter, he⟩⟩ := h.of_addressingByte hs
    · exact absurd (by rw [hcount, he]; rfl) hx
    · exact ⟨hsize, hdir, .inr ⟨hclass, hter⟩, .inr (by rw [hcount, he]; rfl)⟩
  | immediateByte =>
    obtain ⟨hsize, hdir, hclass, he | he⟩ := h.of_immediateByte hs
    · exact absurd (by rw [hcount, he]; rfl) hx
    · exact ⟨hsize, hdir, hclass, .inl (by rw [hcount, he]; rfl)⟩

/-! ### Reset, and every step -/

theorem inv_reset : State.reset.Inv := ⟨⟨rfl, rfl⟩, rfl⟩

/-- Settles O44: `inv_reset`. -/
theorem invariantHoldsAtReset : Obligations.InvariantHoldsAtReset := inv_reset

/-- Settles O45, by what the step did: an opcode byte by `takeOpcode_inv`, an operand byte by
`operandTaken_goesOn_decoderInv` or, at a completion, by the count that has come to 0. -/
theorem everyStepKeepsTheInvariant : Obligations.EveryStepKeepsTheInvariant := by
  rintro s t ⟨hdec, herr⟩ hstep
  cases step_cases hstep with
  | idle h ht => exact ht ▸ ⟨hdec, herr⟩
  | ignored e rest h hs he ht => exact ht ▸ ⟨hdec, herr⟩
  | reset rest h ht => exact ht ▸ inv_reset
  | ended rest h hs ht => exact ht ▸ endRunning_inv ⟨hdec, herr⟩ hs
  | opcode b rest h hs hd ht =>
    rw [ht]
    exact takeOpcode_inv (s := { s with inputs := rest, pos := s.pos + 1 })
      ⟨hdec, .of_running hs (herr.err_of_running hs)⟩ hs hd s.pos rfl b
  | memoryForm b rest h hs hd hb ht =>
    exact ht ▸ ⟨hdec.congr rfl rfl, .inr (.inl ⟨rfl, hd, hb, rfl⟩)⟩
  | goesOn b rest u h hs hu hx ht =>
    obtain ⟨hd, -, rfl⟩ := eq_operandTaken_of_counted hu
    have hframe := operandTaken_frame (s := { s with inputs := rest }) hd b
    subst ht
    refine ⟨operandTaken_goesOn_decoderInv (s := { s with inputs := rest }) hdec hd hx,
      .of_running ?_ ?_⟩
    · exact (congrArg State.status hframe).trans hs
    · exact (congrArg State.err hframe).trans (herr.err_of_running hs)
  | completes b rest u v i h hs hu hx hi hv ht =>
    obtain ⟨hd, -, rfl⟩ := eq_operandTaken_of_counted hu
    have hframe := operandTaken_frame (s := { s with inputs := rest }) hd b
    have hexec := exec_frame hv
    subst ht
    refine ⟨⟨rfl, (exec_expect hv).trans hx⟩, .of_running ?_ ?_⟩
    · exact (congrArg State.status hexec).trans ((congrArg State.status hframe).trans hs)
    · exact (congrArg State.err hexec).trans
        ((congrArg State.err hframe).trans (herr.err_of_running hs))

/-! ### Progress -/

/-- R36, R140: a record with a class has a descriptor. -/
theorem descriptor_of_class {s : State} (h : s.pending.opcodeClass ≠ .none) :
    ∃ i, s.descriptor = some i := by
  unfold State.descriptor
  split
  · next hnone => exact absurd hnone h
  · exact ⟨_, rfl⟩
  · exact ⟨_, rfl⟩
  · exact ⟨_, rfl⟩

theorem completeIfLast_next {s : State} (h : s.pending.opcodeClass ≠ .none) :
    ∃ t, s.completeIfLast = .next t := by
  by_cases hx : s.pending.expect = 0#2
  · obtain ⟨i, hi⟩ := descriptor_of_class h
    obtain ⟨t, -, ht⟩ := complete_next hi
    exact ⟨_, (completeIfLast_of_zero hx).trans ht⟩
  · exact ⟨_, completeIfLast_of_more hx⟩

/-- A byte taken while the session runs under the decoder's invariant always has an answer. -/
theorem takeRunning_next {s : State} (h : s.DecoderInv) (p : Nat) (b : Byte) :
    ∃ t, s.takeRunning p b = .next t := by
  cases hd : s.dstate with
  | operandByte => exact ⟨_, takeRunning_operandByte hd p b⟩
  | addressingByte =>
    have hclass := h.class_ne_none (by simp [hd])
    cases hb : isRegisterForm b with
    | false => exact ⟨_, takeRunning_memoryForm hd p hb⟩
    | true =>
      rw [takeRunning_registerForm hd p hb]
      exact completeIfLast_next hclass
  | immediateByte =>
    have hclass := h.class_ne_none (by simp [hd])
    rw [takeRunning_immediateByte hd]
    exact completeIfLast_next (by rwa [immediated_frame])

/-- Settles O46, by the event that the step handles: under the invariant a completing byte finds a
class (`State.DecoderInv.class_ne_none`), and every other event has its answer in any state. -/
theorem noStepStops : Obligations.NoStepStops := by
  rintro s ⟨hdec, -⟩
  cases hin : s.inputs with
  | nil => exact ⟨_, step_idle hin⟩
  | cons e rest =>
    by_cases hs : s.status = .running
    · cases e with
      | byte b =>
        rw [step_byte_running hs hin]
        exact takeRunning_next (s := { s with inputs := rest, pos := s.pos + 1 }) hdec s.pos b
      | endOfStream => exact ⟨_, step_end hin⟩
      | reset => exact ⟨_, step_reset hin⟩
    · by_cases he : e = .reset
      · exact ⟨_, step_reset (he ▸ hin)⟩
      · exact ⟨_, step_terminal hs he hin⟩

/-- Settles O53, by the status: the invariant names the error's kind in Error, and has the clear
record of reset before it. -/
theorem onlyFourErrorCodesOccur : Obligations.OnlyFourErrorCodesOccur := by
  rintro s ⟨-, herr⟩
  have hport : s.outputs.outErrCode = s.err.code.code := rfl
  rw [hport]
  cases hs : s.status with
  | running =>
    have hclear := herr.err_of_running hs
    simp [hclear, ErrorRecord.reset, ErrCode.code]
  | done =>
    have hclear : s.err = ErrorRecord.reset ∧ s.dstate = .operandByte := by
      simpa only [State.ErrorInv, hs] using herr
    simp [hclear.1, ErrorRecord.reset, ErrCode.code]
  | error =>
    simp only [State.ErrorInv, hs] at herr
    obtain ⟨hc, -⟩ | ⟨hc, -⟩ | ⟨hc, -⟩ := herr <;> simp [hc, ErrCode.code]

end Sys2Proof.Machine
end

section
/-! PROOFS. How often the loop of the multiply runs (R175, R180), and what it leaves in `shadow`
(R184). -/

namespace Sys2Proof.Machine

/-! ### The loop's condition -/

/-- R175, in numbers. -/
theorem mulGoesOn_iff (w : MulWork) :
    mulGoesOn w = true ↔ w.mult.toNat ≠ 0 ∧ (pair w.carry w.shadow).toNat ≠ 0 := by
  simp [mulGoesOn, ← BitVec.toNat_inj]

theorem mulLoop_succ_of_goesOn {w : MulWork} (h : mulGoesOn w = true) (n : Nat) :
    mulLoop (n + 1) w = mulLoop n (mulPass w) := by
  rw [mulLoop, if_pos h]

theorem mulLoop_of_stopped {w : MulWork} (h : mulGoesOn w = false) (n : Nat) :
    mulLoop n w = w := by
  cases n <;> simp [mulLoop, h]

theorem mulPasses_succ_of_goesOn {w : MulWork} (h : mulGoesOn w = true) (n : Nat) :
    mulPasses (n + 1) w = mulPasses n (mulPass w) + 1 := by
  rw [mulPasses, if_pos h]

theorem mulPasses_of_stopped {w : MulWork} (h : mulGoesOn w = false) (n : Nat) :
    mulPasses n w = 0 := by
  cases n <;> simp [mulPasses, h]

/-- R177: a pass leaves one bit less of the multiplier. -/
theorem mulPass_mult_lt {w : MulWork} {n : Nat} (h : w.mult.toNat < 2 ^ (n + 1)) :
    (mulPass w).mult.toNat < 2 ^ n := by
  rw [mulPass_mult_toNat]
  omega

/-- With fuel for the multiplier's bits, the loop ends by its own condition. -/
theorem mulLoop_stops {n : Nat} {w : MulWork} (h : w.mult.toNat < 2 ^ n) :
    mulGoesOn (mulLoop n w) = false := by
  induction n generalizing w with
  | zero =>
    have hzero : w.mult.toNat = 0 := by omega
    simp [mulLoop, Bool.eq_false_iff, mulGoesOn_iff, hzero]
  | succ n ih =>
    cases hgo : mulGoesOn w with
    | true => rw [mulLoop_succ_of_goesOn hgo]; exact ih (mulPass_mult_lt h)
    | false => rwa [mulLoop_of_stopped hgo]

/-- More fuel than the multiplier has bits makes no difference. -/
theorem mulLoop_of_more_fuel {n k : Nat} {w : MulWork} (h : w.mult.toNat < 2 ^ n) (hk : n ≤ k) :
    mulLoop k w = mulLoop n w := by
  induction n generalizing k w with
  | zero => exact mulLoop_of_stopped (mulLoop_stops h) k
  | succ n ih =>
    obtain ⟨k, rfl⟩ : ∃ j, k = j + 1 := ⟨k - 1, by omega⟩
    cases hgo : mulGoesOn w with
    | true =>
      rw [mulLoop_succ_of_goesOn hgo, mulLoop_succ_of_goesOn hgo]
      exact ih (mulPass_mult_lt h) (by omega)
    | false => rw [mulLoop_of_stopped hgo, mulLoop_of_stopped hgo]

/-! ### The number of passes -/

/-- R180: `bitlen` is the least width that holds the word. -/
theorem bitLength_le_iff (v : Word) (k : Nat) : bitLength v ≤ k ↔ v.toNat < 2 ^ k := Nat.size_le

theorem bitLength_pass {w : MulWork} (h : w.mult.toNat ≠ 0) :
    bitLength w.mult = bitLength (mulPass w).mult + 1 := by
  have hhalf := mulPass_mult_toNat w
  refine eq_of_forall_ge_iff fun k => ?_
  cases k with
  | zero => rw [bitLength_le_iff]; omega
  | succ k => rw [Nat.add_le_add_iff_right, bitLength_le_iff, bitLength_le_iff]; omega

/-- R177: a pass doubles the multiplicand, as long as 32 bits hold the double. -/
theorem mulPass_multiplicand_toNat {w : MulWork}
    (h : 2 * (pair w.carry w.shadow).toNat < 2 ^ 32) :
    (pair (mulPass w).carry (mulPass w).shadow).toNat = 2 * (pair w.carry w.shadow).toNat := by
  rw [mulPass_multiplicand, BitVec.toNat_add]
  omega

/-- R180: as long as the multiplicand, shifted left once for each bit of the multiplier, does not
overflow its 32 bits, it stays nonzero, and the loop makes one pass per bit. -/
theorem mulPasses_eq_bitLength {fuel : Nat} {w : MulWork} (hfuel : bitLength w.mult ≤ fuel)
    (hne : (pair w.carry w.shadow).toNat ≠ 0)
    (hfit : (pair w.carry w.shadow).toNat * 2 ^ bitLength w.mult < 2 ^ 32) :
    mulPasses fuel w = bitLength w.mult := by
  induction fuel generalizing w with
  | zero => exact (Nat.le_zero.1 hfuel).symm
  | succ fuel ih =>
    by_cases hm : w.mult.toNat = 0
    · have hstop : mulGoesOn w = false := by
        rw [Bool.eq_false_iff, Ne, mulGoesOn_iff]
        exact fun h => h.1 hm
      rw [mulPasses_of_stopped hstop, bitLength, hm, Nat.size_zero]
    · have hbits := bitLength_pass hm
      rw [hbits, pow_succ', ← mul_assoc, mul_comm _ 2] at hfit
      have hdouble := mulPass_multiplicand_toNat
        ((Nat.le_mul_of_pos_right _ (Nat.two_pow_pos _)).trans_lt hfit)
      rw [mulPasses_succ_of_goesOn ((mulGoesOn_iff w).2 ⟨hm, hne⟩), hbits,
        ih (by omega) (by omega) (by rwa [hdouble])]

/-- R180: the passes from the loop's start. -/
theorem mulPasses_mulStart (m s : Word) {fuel : Nat} (hfuel : 16 ≤ fuel) :
    mulPasses fuel (mulStart m s) = if s = 0#16 then 0 else bitLength m := by
  have hpair : (pair (mulStart m s).carry (mulStart m s).shadow).toNat = s.toNat := by
    simp [mulStart, pair_toNat]
  have hbits : bitLength m ≤ 16 := (bitLength_le_iff m 16).2 m.isLt
  split
  · next hzero =>
    refine mulPasses_of_stopped ?_ fuel
    rw [Bool.eq_false_iff, Ne, mulGoesOn_iff, hpair, hzero]
    exact fun h => h.2 rfl
  · next hne =>
    refine mulPasses_eq_bitLength (by exact hbits.trans hfuel) ?_ ?_
    · rw [hpair]
      exact fun h => hne (BitVec.eq_of_toNat_eq h)
    · rw [hpair]
      calc s.toNat * 2 ^ bitLength m
          ≤ s.toNat * 2 ^ 16 := Nat.mul_le_mul_left _ (Nat.pow_le_pow_right (by decide) hbits)
        _ < 2 ^ 32 := by have := s.isLt; omega

/-- Settles O38: the count is `mulPasses_mulStart`; 16 bits of fuel are enough for the loop to end
by its own condition, and more make no difference. -/
theorem loopMakesBitLengthPasses : Obligations.LoopMakesBitLengthPasses := by
  refine ⟨fun m s fuel hfuel => ⟨mulPasses_mulStart m s hfuel, ?_,
    mulLoop_of_more_fuel m.isLt hfuel, mulLoop_stops m.isLt⟩,
    fun m k => (bitLength_le_iff m k).symm, ?_, ?_, ?_, ?_⟩
  · rw [mulPasses_mulStart m s hfuel]
    have hbits : bitLength m ≤ 16 := (bitLength_le_iff m 16).2 m.isLt
    split <;> omega
  all_goals decide

/-! ### The multiplicand's last value -/

/-- R177: every pass shifts `shadow` left by one. -/
theorem mulLoop_shadow (n : Nat) (w : MulWork) :
    (mulLoop n w).shadow = w.shadow <<< mulPasses n w := by
  induction n generalizing w with
  | zero => simp [mulLoop, mulPasses]
  | succ n ih =>
    cases hgo : mulGoesOn w with
    | true =>
      rw [mulLoop_succ_of_goesOn hgo, mulPasses_succ_of_goesOn hgo, ih, mulPass, mulShift_shadow,
        mulAdd_shadow, Nat.add_comm, BitVec.shiftLeft_add]
    | false => simp [mulLoop_of_stopped hgo, mulPasses_of_stopped hgo]

/-- R184: `shadow_out` is `(S << k)[15:0]`. -/
theorem imul16_shadowOut (m s : Word) :
    (imul16 m s).shadowOut =
      magnitude s <<< (if magnitude s = 0#16 then 0 else bitLength (magnitude m)) := by
  rw [← mulPasses_mulStart _ _ (fuel := mulFuel) (by decide)]
  exact mulLoop_shadow mulFuel _

/-- Settles O43 by `imul16_shadowOut`, the two values by evaluation. -/
theorem shadowHoldsTheShiftedMultiplicand : Obligations.ShadowHoldsTheShiftedMultiplicand :=
  ⟨imul16_shadowOut, by decide, by decide⟩

/-! ### A zero operand -/

@[simp] theorem magnitude_zero : magnitude 0#16 = 0#16 := rfl

/-- R182: with a zero operand the loop stops at its start. -/
theorem mulGoesOn_mulStart_of_zero {m s : Word} (h : m = 0#16 ∨ s = 0#16) :
    mulGoesOn (mulStart (magnitude m) (magnitude s)) = false := by
  obtain rfl | rfl := h
  · simp [mulGoesOn, mulStart]
  · simp [mulGoesOn, mulStart, pair]

/-- Settles O41: the loop stops at its start, where both halves are 0, and the negation of zero is
zero. -/
theorem zeroOperandGivesZero : Obligations.ZeroOperandGivesZero := by
  intro m s h
  have hstop := mulGoesOn_mulStart_of_zero h
  have hloop : mulUnsigned (magnitude m) (magnitude s) = mulStart (magnitude m) (magnitude s) :=
    mulLoop_of_stopped hstop _
  have hsigned : signCorrect (productSign m s) 0#16 0#16 = (0#16, 0#16) := by
    cases productSign m s <;> rfl
  refine ⟨mulPasses_of_stopped hstop _, by rw [hloop]; rfl, by rw [hloop]; rfl, ?_, ?_⟩
  · rw [imul16, hloop]; exact congrArg Prod.fst hsigned
  · rw [imul16, hloop]; exact congrArg Prod.snd hsigned

end Sys2Proof.Machine
end

section
/-! PROOFS. The unsigned product in exact arithmetic (R181), and the product's sign and range
(R183). -/

namespace Sys2Proof.Machine

/-! ### Magnitudes -/

/-- A word is negative, bit 15 set, from 0x8000 on. -/
theorem getLsbD_15_iff (v : Word) : v.getLsbD 15 = true ↔ 32768 ≤ v.toNat := by
  rw [← BitVec.msb_eq_getLsbD_last (w := 16), BitVec.msb_eq_decide, decide_eq_true_iff]

theorem magnitude_toNat (v : Word) :
    (magnitude v).toNat = if v.getLsbD 15 then 65536 - v.toNat else v.toNat := by
  unfold magnitude
  split
  · next hneg =>
    have := (getLsbD_15_iff v).1 hneg
    rw [← BitVec.neg_eq_not_add, BitVec.toNat_neg]
    omega
  · rfl

/-- R173: the magnitude of a word that is not negative. -/
theorem magnitude_le_of_nonneg {v : Word} (h : v.getLsbD 15 = false) :
    (magnitude v).toNat ≤ 0x7FFF := by
  have := mt (getLsbD_15_iff v).2 (Bool.eq_false_iff.1 h)
  rw [magnitude_toNat, h]
  simp only [Bool.false_eq_true, if_false]
  omega

/-- R173: the magnitude of a negative word. -/
theorem magnitude_bounds_of_neg {v : Word} (h : v.getLsbD 15 = true) :
    1 ≤ (magnitude v).toNat ∧ (magnitude v).toNat ≤ 0x8000 := by
  have := (getLsbD_15_iff v).1 h
  have := v.isLt
  rw [magnitude_toNat, if_pos h]
  omega

theorem magnitude_le (v : Word) : (magnitude v).toNat ≤ 0x8000 := by
  cases h : v.getLsbD 15 with
  | false => exact (magnitude_le_of_nonneg h).trans (by decide)
  | true => exact (magnitude_bounds_of_neg h).2

/-- R181: only the most negative word has the largest magnitude. -/
theorem eq_of_magnitude_eq {v : Word} (h : (magnitude v).toNat = 0x8000) : v = 0x8000#16 := by
  apply BitVec.eq_of_toNat_eq
  rw [magnitude_toNat] at h
  have := getLsbD_15_iff v
  rw [BitVec.toNat_ofNat]
  split at h <;> omega

/-! ### The total without a modulus -/

/-- The sum so far and the rest of the multiplier times the multiplicand, in exact arithmetic:
`MulWork.total` before its modulus. -/
def MulWork.exactTotal (w : MulWork) : Nat :=
  (pair w.hi w.lo).toNat + w.mult.toNat * (pair w.carry w.shadow).toNat

/-- A multiplicand too large to be doubled in 32 bits meets no further multiplier bit. -/
theorem half_mul_double {mult cand : Nat} (h : mult * cand < 2 ^ 32) :
    mult / 2 * ((cand + cand) % 2 ^ 32) = mult / 2 * (cand + cand) := by
  by_cases hq : mult / 2 = 0
  · rw [hq, Nat.zero_mul, Nat.zero_mul]
  · have htwo : 2 * cand ≤ mult * cand := Nat.mul_le_mul_right _ (by omega)
    rw [Nat.mod_eq_of_lt (by omega)]

/-- R176, R177: a pass keeps the exact total while 32 bits hold it. -/
theorem mulPass_exactTotal {w : MulWork} (h : w.exactTotal < 2 ^ 32) :
    (mulPass w).exactTotal = w.exactTotal := by
  have hbit : w.mult.getLsbD 0 = decide (w.mult.toNat % 2 = 1) := by
    simp [BitVec.getLsbD, Nat.testBit_zero]
  unfold MulWork.exactTotal at h ⊢
  rw [mulPass_sum, mulPass_multiplicand, mulPass_mult_toNat, hbit, BitVec.toNat_add,
    BitVec.toNat_add, half_mul_double ((Nat.le_add_left _ _).trans_lt h)]
  generalize pair w.hi w.lo = sum at *
  generalize pair w.carry w.shadow = cand at *
  generalize w.mult.toNat = mult at *
  have hsplit : mult * cand.toNat =
      mult / 2 * (cand.toNat + cand.toNat) + mult % 2 * cand.toNat := by
    conv_lhs => rw [← Nat.div_add_mod mult 2]
    ring
  obtain hr | hr := Nat.mod_two_eq_zero_or_one mult
  · rw [hr, Nat.zero_mul] at hsplit
    simp only [hr, Nat.zero_ne_one, decide_false, Bool.false_eq_true, if_false, BitVec.toNat_ofNat]
    omega
  · rw [hr, Nat.one_mul] at hsplit
    simp only [hr, decide_true, if_true]
    omega

theorem mulLoop_exactTotal {w : MulWork} (h : w.exactTotal < 2 ^ 32) (n : Nat) :
    (mulLoop n w).exactTotal = w.exactTotal := by
  induction n generalizing w with
  | zero => rfl
  | succ n ih =>
    cases hgo : mulGoesOn w with
    | true =>
      have hpass := mulPass_exactTotal h
      rw [mulLoop_succ_of_goesOn hgo, ih (by rwa [hpass]), hpass]
    | false => rw [mulLoop_of_stopped hgo]

@[simp] theorem mulStart_exactTotal (m s : Word) :
    (mulStart m s).exactTotal = m.toNat * s.toNat := by
  simp [MulWork.exactTotal, mulStart, pair_toNat]

/-- R176: the high half's add, when it happens, stays within the exact total. -/
theorem mulAdd_hi_le {w : MulWork} (hbit : w.mult.getLsbD 0 = true) :
    (w.hi.toNat + w.carry.toNat + (BitVec.ofBool (carryOut w.lo w.shadow)).toNat) * 65536 ≤
      w.exactTotal := by
  have hpos : 0 < w.mult.toNat := by
    by_contra hzero
    simp [BitVec.getLsbD, show w.mult.toNat = 0 by omega] at hbit
  have hcand := Nat.le_mul_of_pos_left (pair w.carry w.shadow).toNat hpos
  have hsum := pair_toNat w.hi w.lo
  have hpair := pair_toNat w.carry w.shadow
  rw [carryOut_toNat, MulWork.exactTotal]
  omega

/-- R181: the unsigned product fits 32 bits. -/
theorem mulUnsigned_toNat {m s : Word} (h : m.toNat * s.toNat < 2 ^ 32) :
    (pair (mulUnsigned m s).hi (mulUnsigned m s).lo).toNat = m.toNat * s.toNat := by
  rw [mulUnsigned_sum, BitVec.toNat_ofNat, Nat.mod_eq_of_lt h]

theorem magnitude_mul_le (m s : Word) :
    (magnitude m).toNat * (magnitude s).toNat ≤ 0x40000000 :=
  Nat.mul_le_mul (magnitude_le m) (magnitude_le s)

/-- Settles O39: the product of two magnitudes is at most 2^30, every pass keeps the exact total
(`mulPass_exactTotal`), and each add into `hi` is bounded by it (`mulAdd_hi_le`). -/
theorem unsignedProductNeverWraps : Obligations.UnsignedProductNeverWraps := by
  intro m s
  have hle := magnitude_mul_le m s
  have hvalue := mulUnsigned_toNat (hle.trans_lt (by decide))
  refine ⟨hvalue, hle, ?_, ?_, ?_⟩
  · rw [pair_toNat] at hvalue
    rw [BitVec.le_def, BitVec.toNat_ofNat]
    omega
  · intro n w _ hbit
    have htotal : w.exactTotal = (magnitude m).toNat * (magnitude s).toNat :=
      (mulLoop_exactTotal (by rw [mulStart_exactTotal]; omega) n).trans (mulStart_exactTotal _ _)
    have hadd := mulAdd_hi_le hbit
    omega
  · intro hmax
    have hm := magnitude_le m
    have hs := magnitude_le s
    constructor
    · refine eq_of_magnitude_eq (le_antisymm hm ?_)
      have := Nat.mul_le_mul_left (magnitude m).toNat hs
      omega
    · refine eq_of_magnitude_eq (le_antisymm hs ?_)
      have := Nat.mul_le_mul_right (magnitude s).toNat hm
      omega

/-! ### Signs -/

/-- R172, R178: the product is the product of the magnitudes, negated where the signs differ. -/
theorem pair_imul16_magnitudes (m s : Word) :
    pair (imul16 m s).hi (imul16 m s).lo =
      if productSign m s then -(BitVec.ofNat 32 ((magnitude m).toNat * (magnitude s).toNat))
      else BitVec.ofNat 32 ((magnitude m).toNat * (magnitude s).toNat) := by
  rw [imul16, pair_signCorrect, mulUnsigned_sum]

/-- R183: where the signs agree, the product is the product of the magnitudes. -/
theorem imul16_toNat_of_sameSign {m s : Word} (h : m.getLsbD 15 = s.getLsbD 15) :
    (pair (imul16 m s).hi (imul16 m s).lo).toNat =
      (magnitude m).toNat * (magnitude s).toNat := by
  have hle := magnitude_mul_le m s
  have hsign : productSign m s = false := by rw [productSign, h, Bool.xor_self]
  rw [pair_imul16_magnitudes, hsign, if_neg Bool.false_ne_true, BitVec.toNat_ofNat,
    Nat.mod_eq_of_lt (by omega)]

/-- R183: where the signs differ, one magnitude is at most 0x7FFF and the other at most 0x8000. -/
theorem magnitude_mul_le_of_signs_differ {m s : Word} (h : m.getLsbD 15 ≠ s.getLsbD 15) :
    (magnitude m).toNat * (magnitude s).toNat ≤ 0x3FFF8000 := by
  cases hm : m.getLsbD 15 with
  | false => exact Nat.mul_le_mul (magnitude_le_of_nonneg hm) (magnitude_le s)
  | true =>
    have hs : s.getLsbD 15 = false := Bool.eq_false_iff.2 fun hs => h (hm.trans hs.symm)
    exact Nat.mul_le_mul (magnitude_le m) (magnitude_le_of_nonneg hs)

/-- The negation of a 32-bit value of at most 0x3FFF8000. -/
theorem neg_ofNat_range {p : Nat} (h : p ≤ 0x3FFF8000) :
    -(BitVec.ofNat 32 p) = 0#32 ∨ 0xC0008000#32 ≤ -(BitVec.ofNat 32 p) := by
  by_cases hp : p = 0
  · exact .inl (by rw [hp]; rfl)
  · refine .inr ?_
    rw [BitVec.le_def, BitVec.toNat_neg, BitVec.toNat_ofNat, BitVec.toNat_ofNat]
    omega

theorem imul16_comm (m s : Word) :
    pair (imul16 s m).hi (imul16 s m).lo = pair (imul16 m s).hi (imul16 m s).lo := by
  rw [pair_imul16, pair_imul16, mul_comm]

/-- Settles O42: the sign rows by `productSign`, their ranges by those of the magnitudes, the six
extremes by evaluation. -/
theorem productFollowsTheSigns : Obligations.ProductFollowsTheSigns := by
  refine ⟨fun m s => ⟨fun hm hs => ?_, fun hne => ?_, fun hm hs => ?_, imul16_comm m s⟩,
    ?_, ?_, ?_, ?_, ?_, ?_⟩
  · exact ⟨imul16_toNat_of_sameSign (hm.trans hs.symm),
      Nat.mul_le_mul (magnitude_le_of_nonneg hm) (magnitude_le_of_nonneg hs)⟩
  · have hsign : productSign m s = true := by rw [productSign, bne_iff_ne]; exact hne
    have hvalue := pair_imul16_magnitudes m s
    rw [hsign, if_pos rfl] at hvalue
    refine ⟨hvalue, ?_⟩
    rw [hvalue]
    exact neg_ofNat_range (magnitude_mul_le_of_signs_differ hne)
  · obtain ⟨hm1, hm2⟩ := magnitude_bounds_of_neg hm
    obtain ⟨hs1, hs2⟩ := magnitude_bounds_of_neg hs
    exact ⟨imul16_toNat_of_sameSign (hm.trans hs.symm), Nat.mul_le_mul hm1 hs1,
      Nat.mul_le_mul hm2 hs2⟩
  all_goals decide

end Sys2Proof.Machine
end

section
/-! PROOFS. What the instructions read and write beyond their operands: XOR as its own inverse
(R145), IMUL's two halves (R143), and what no instruction reads (R24, R43). -/

namespace Sys2Proof.Machine

/-! ### XOR -/

/-- Settles O32: bit by bit as `BitVec` has it; the second XOR finds the source unchanged and takes
the first one back. -/
theorem xorIsBitwiseAndItsOwnInverse : Obligations.XorIsBitwiseAndItsOwnInverse := by
  intro rd rs s
  refine ⟨_, exec_xor rd rs s, fun i => ?_, fun hne => ⟨_, exec_xor rd rs _, ?_⟩⟩
  · rw [State.readReg_writeReg_same, BitVec.getLsbD_xor]
  · rw [State.readReg_writeReg_same, State.readReg_writeReg_other s hne.symm,
      State.writeReg_writeReg, BitVec.xor_assoc, BitVec.xor_self, BitVec.xor_zero,
      State.writeReg_readReg]

/-! ### IMUL -/

/-- Two registers take the two halves (R143). -/
theorem imulled_regs_of_ne (s : State) {rh rl : Reg} (h : rh ≠ rl) (imm : Word) :
    (s.imulled rh rl imm).regs =
      (s.regs.set rl (imul16 (s.regs.get rl) imm).lo).set rh (imul16 (s.regs.get rl) imm).hi := by
  rw [imulled_regs, if_neg (fun hd => h hd.1)]

/-- D13: under `high_wins` one register for both halves keeps the high one. -/
theorem readReg_imulled_highWins (s : State) (r : Reg) (imm : Word)
    (h : s.config.imulSameReg = .highWins) :
    (s.imulled r r imm).readReg r = (imul16 (s.readReg r) imm).hi := by
  rw [State.readReg, imulled_regs, if_neg (by simp [h]), RegFile.get_set_same]
  rfl

/-- D13: under `draw` it holds the next free value. -/
theorem readReg_imulled_draw (s : State) (r : Reg) (imm : Word)
    (h : s.config.imulSameReg = .draw) :
    (s.imulled r r imm).readReg r = Config.freeWord s.draws := by
  rw [State.readReg, imulled_regs, if_pos ⟨rfl, h⟩, RegFile.get_set_same]

/-- R171: the multiply's halves are the signed product. -/
theorem pair_imul16_eq_exactProduct (m s : Word) :
    pair (imul16 m s).hi (imul16 m s).lo = exactProduct m s :=
  (pair_imul16 m s).trans (BitVec.ofInt_mul _ _)

/-- The high half of a pair. -/
theorem extractLsb'_pair (hi lo : Word) : (pair hi lo).extractLsb' 16 16 = hi :=
  BitVec.extractLsb'_append_eq_left

/-- Settles O34: registers, count and record by the `imulled` laws, the product by
`pair_imul16_eq_exactProduct`; a memory form ends the session before the executor's turn. -/
theorem imulWritesTheSignedProduct : Obligations.ImulWritesTheSignedProduct := by
  intro rh rl imm s
  refine ⟨_, exec_imul rh rl imm s, fun hne => ?distinct, fun hsame hcfg => ?highWins,
    fun hsame hcfg => ?draw, fun r hh hl => readReg_imulled_other s imm hh hl, ?shadow,
    imulled_draws s rh rl imm, exec_frame (exec_imul rh rl imm s), ?encoding,
    fun b rest hs hin hb => runSteps_twoOperand_memoryForm hs hin (.inr opcodeOf_imul) hb⟩
  case distinct =>
    rw [State.readReg, State.readReg, imulled_regs_of_ne s hne, RegFile.get_set_same,
      RegFile.get_set_other _ hne.symm, RegFile.get_set_same]
    exact pair_imul16_eq_exactProduct _ _
  case highWins =>
    subst hsame
    rw [readReg_imulled_highWins s rh imm hcfg, ← exactProduct, ← pair_imul16_eq_exactProduct,
      extractLsb'_pair]
  case draw =>
    subst hsame
    exact readReg_imulled_draw s rh imm hcfg
  case shadow => rw [imulled_pending]; rfl
  case encoding => rw [encode, addressingByte_eq_or, immLow, immHigh]

/-- Settles O35: the low half is read and written beside `x[rh]`, and the high half overwrites it,
so the value put there is gone. -/
theorem oldHighRegisterIsNoInput : Obligations.OldHighRegisterIsNoInput := by
  intro rh rl imm v s hne
  have hlow : (s.writeReg rh v).readReg rl = s.readReg rl := s.readReg_writeReg_other hne.symm v
  have hregs : (((s.writeReg rh v).regs.set rl (imul16 (s.readReg rl) imm).lo).set rh
      (imul16 (s.readReg rl) imm).hi) =
      ((s.regs.set rl (imul16 (s.readReg rl) imm).lo).set rh (imul16 (s.readReg rl) imm).hi) := by
    rw [State.writeReg_regs, RegFile.set_comm _ hne, RegFile.set_set]
  rw [exec_imul, exec_imul, State.imulled, State.imulled, settleSameReg_of_ne _ hne,
    settleSameReg_of_ne _ hne, hlow]
  exact congrArg (fun f => Host.Outcome.next { s.setShadow (imul16 (s.readReg rl) imm).shadowOut
    with regs := f }) hregs

/-! ### What no instruction reads -/

/-- R43: the registers and the count that an instruction leaves depend on the registers, the
parameter and the count alone. -/
theorem exec_congr (i : Instr) {s1 s2 t1 t2 : State} (hregs : s1.regs = s2.regs)
    (hcfg : s1.config = s2.config) (hdraws : s1.draws = s2.draws) (h1 : exec i s1 = .next t1)
    (h2 : exec i s2 = .next t2) : t1.regs = t2.regs ∧ t1.draws = t2.draws := by
  cases i with
  | xor rd rs =>
    cases h1
    cases h2
    exact ⟨by simp only [State.writeReg_regs, State.readReg, hregs], hdraws⟩
  | mov rd imm =>
    cases h1
    cases h2
    exact ⟨by simp only [State.writeReg_regs, hregs], hdraws⟩
  | imul rh rl imm =>
    rw [exec_imul] at h1 h2
    cases h1
    cases h2
    exact ⟨by rw [imulled_regs, imulled_regs, hregs, hcfg, hdraws],
      by rw [imulled_draws, imulled_draws, hcfg, hdraws]⟩

/-- Settles O36 by `exec_congr` and, for the frame, `exec_frame`. -/
theorem instructionsReadOnlyRegisters : Obligations.InstructionsReadOnlyRegisters := by
  intro i s1 s2 hregs hcfg hdraws
  obtain ⟨t1, h1⟩ := exec_next i s1
  obtain ⟨t2, h2⟩ := exec_next i s2
  obtain ⟨htregs, htdraws⟩ := exec_congr i hregs hcfg hdraws h1 h2
  exact ⟨t1, t2, h1, h2, htregs, htdraws, exec_frame h1⟩

end Sys2Proof.Machine
end

section
/-! PROOFS. How a session ends and starts again: Done and Error last (R207), an error is precise
(R205, R209), a Reset starts afresh (R230, R231). -/

namespace Sys2Proof.Machine

/-! ### Done and Error -/

theorem noResetIn_succ_cons {n : Nat} {e : Event} {rest : List Event}
    (h : noResetIn (n + 1) (e :: rest)) : e ≠ .reset ∧ noResetIn n rest := by
  simpa [noResetIn, eq_comm] using h

/-- R207: over any number of events without a Reset, a session that is over only uses them up. -/
theorem runSteps_terminal {n : Nat} {s : State} (hs : s.status ≠ .running)
    (h : noResetIn n s.inputs) : runSteps n s = .next { s with inputs := s.inputs.drop n } := by
  induction n generalizing s with
  | zero => rfl
  | succ n ih =>
    cases hin : s.inputs with
    | nil =>
      rw [runSteps_succ n (step_idle hin), ih hs (by simp [hin, noResetIn]), hin, List.drop_nil,
        List.drop_nil]
    | cons e rest =>
      rw [hin] at h
      obtain ⟨he, hrest⟩ := noResetIn_succ_cons h
      rw [runSteps_succ n (step_terminal hs he hin), ih (s := { s with inputs := rest }) hs hrest,
        List.drop_succ_cons]

/-- Settles O23: the run by `runSteps_terminal`; of the steps from a session that is over, only
Reset's changes the status. -/
theorem doneAndErrorLastUntilReset : Obligations.DoneAndErrorLastUntilReset := by
  refine ⟨fun n s => runSteps_terminal, fun s t hs hstep hchange => ?_⟩
  cases step_cases hstep with
  | idle h ht => exact absurd (by rw [ht]) hchange
  | ignored e rest h _ he ht => exact absurd (by rw [ht]) hchange
  | reset rest h ht => exact ⟨by rw [h, List.head?_cons], by rw [ht]; rfl⟩
  | ended rest h hrun ht => exact absurd hrun hs
  | opcode b rest h hrun hd ht => exact absurd hrun hs
  | memoryForm b rest h hrun hd hb ht => exact absurd hrun hs
  | goesOn b rest u h hrun hu hx ht => exact absurd hrun hs
  | completes b rest u v i h hrun hu hx hi hv ht => exact absurd hrun hs

/-! ### Errors -/

/-- R112 to R115: an opcode byte that ends the session is one without an instruction. -/
theorem opcodeOf_eq_none_of_error {s : State} {p : Nat} {b : Byte} (hs : s.status = .running)
    (h : (s.takeOpcode p b).status = .error) : opcodeOf b = none := by
  unfold State.takeOpcode at h
  split at h
  · exact absurd (hs.symm.trans h) (by decide)
  · exact absurd (hs.symm.trans h) (by decide)
  · exact absurd (hs.symm.trans h) (by decide)
  · assumption

/-- R210: the end of the stream at a boundary. -/
theorem endRunning_boundary {s : State} (hd : s.dstate = .operandByte) :
    s.endRunning = { s with status := .done } := by
  simp [State.endRunning, hd]

/-- R203: the end of the stream inside an instruction. -/
theorem endRunning_inside {s : State} (hd : s.dstate ≠ .operandByte) :
    s.endRunning = s.raise .truncatedInstruction s.pos 0x00#8 := by
  cases hs : s.dstate with
  | operandByte => exact absurd hs hd
  | addressingByte => simp [State.endRunning, hs]
  | immediateByte => simp [State.endRunning, hs]

theorem dstate_of_endRunning_error {s : State} (h : s.endRunning.status = .error) :
    s.dstate ≠ .operandByte := by
  intro hd
  rw [endRunning_boundary hd] at h
  exact absurd h (by simp)

/-- An operand byte in its register form ends no session. -/
theorem operandTaken_status {s : State} (hd : s.dstate ≠ .operandByte) (b : Byte) :
    (s.operandTaken b).status = s.status := by
  rw [operandTaken_frame hd b]

theorem exec_status {i : Instr} {s t : State} (h : exec i s = .next t) : t.status = s.status := by
  rw [exec_frame h]

/-- Settles O24, by what the step did: three of its cases take an error, and each writes what
`State.raise` writes. -/
theorem errorsArePrecise : Obligations.ErrorsArePrecise := by
  intro s t hrun hstep herr
  cases step_cases hstep with
  | idle h ht => exact absurd (hrun.symm.trans (ht ▸ herr)) (by decide)
  | ignored e rest h hs he ht => exact absurd hrun hs
  | reset rest h ht =>
    subst ht
    exact absurd herr (by simp [State.resetBlock, State.reset])
  | ended rest h hs ht =>
    subst ht
    have hd := dstate_of_endRunning_error herr
    rw [endRunning_inside hd]
    exact ⟨rfl, rfl, rfl, rfl, .inr (.inr ⟨rest, h, hd, rfl, rfl⟩)⟩
  | opcode b rest h hs hd ht =>
    subst ht
    have hop := opcodeOf_eq_none_of_error (by exact hs) herr
    rw [takeOpcode_of_none hop]
    exact ⟨rfl, rfl, rfl, rfl, .inl ⟨b, rest, h, hd, hop, rfl, rfl⟩⟩
  | memoryForm b rest h hs hd hb ht =>
    subst ht
    exact ⟨rfl, rfl, rfl, rfl, .inr (.inl ⟨b, rest, h, hd, hb, rfl, rfl⟩)⟩
  | goesOn b rest u h hs hu hx ht =>
    obtain ⟨hd, -, rfl⟩ := eq_operandTaken_of_counted hu
    subst ht
    have hstatus := operandTaken_status (s := { s with inputs := rest }) hd b
    exact absurd (hrun.symm.trans (hstatus.symm.trans herr)) (by decide)
  | completes b rest u v i h hs hu hx hi hv ht =>
    obtain ⟨hd, -, rfl⟩ := eq_operandTaken_of_counted hu
    subst ht
    have hstatus :=
      (exec_status hv).trans (operandTaken_status (s := { s with inputs := rest }) hd b)
    exact absurd (hrun.symm.trans (hstatus.symm.trans herr)) (by decide)

/-! ### Reset -/

/-- R230: what a Reset event leaves, field by field. -/
theorem step_reset_eq {s : State} {rest : List Event} (h : s.inputs = .reset :: rest) :
    step s = .next { State.reset with inputs := rest, config := s.config, draws := s.draws } :=
  step_reset h

/-- Settles O26 by `step_reset_eq` and the reset state's own values. -/
theorem resetEventGivesTheResetState : Obligations.ResetEventGivesTheResetState :=
  fun _ _ h => ⟨_, step_reset_eq h, rfl, rfl, rfl, rfl, readReg_reset, rfl⟩

/-- Settles O27: after the Reset the two machines are in one state. -/
theorem sessionsDoNotInterfere : Obligations.SessionsDoNotInterfere := by
  intro s1 s2 events n hcfg hdraws h1 h2
  rw [runSteps_succ n (step_reset_eq h1), runSteps_succ n (step_reset_eq h2), hcfg, hdraws]

end Sys2Proof.Machine
end

section
/-! PROOFS. The assembler of R95 on the model's own text, in any case (log entry 13). -/

namespace Sys2Proof

/-! ### Case -/

@[simp] theorem lowerCase_nil : lowerCase [] = [] := rfl

@[simp] theorem lowerCase_cons (c : Char) (cs : List Char) :
    lowerCase (c :: cs) = c.toLower :: lowerCase cs := rfl

@[simp] theorem lowerCase_append (cs ds : List Char) :
    lowerCase (cs ++ ds) = lowerCase cs ++ lowerCase ds := by
  induction cs with
  | nil => rfl
  | cons c cs ih => simp [ih]

/-- Register names are in lower case. -/
@[simp] theorem lowerCase_asmName (r : Reg) : lowerCase r.asmName = r.asmName := by
  cases r <;> rfl

@[simp] theorem toLower_hexChar (d : BitVec 4) : (hexChar d).toLower = hexChar d := by
  revert d; decide

/-- Immediates are in lower case. -/
@[simp] theorem lowerCase_immText (imm : Word) : lowerCase (immText imm) = immText imm := by
  simp only [immText, lowerCase_cons, lowerCase_nil, toLower_hexChar]
  rfl

/-- The model's text of an instruction, in lower case. -/
def Instr.lowerText : Instr → List Char
  | .xor rd rs => 'x' :: 'o' :: 'r' :: ' ' :: (rd.asmName ++ ',' :: rs.asmName)
  | .mov rd imm => 'm' :: 'o' :: 'v' :: ' ' :: (rd.asmName ++ ',' :: immText imm)
  | .imul rh rl imm =>
    'i' :: 'm' :: 'u' :: 'l' :: ' ' ::
      (rh.asmName ++ ':' :: (rl.asmName ++ ',' :: (rl.asmName ++ ',' :: immText imm)))

theorem lowerCase_asmText (i : Instr) : lowerCase i.asmText = i.lowerText := by
  cases i <;> simp [Instr.asmText, Instr.lowerText]

theorem lowerCase_lowerText (i : Instr) : lowerCase i.lowerText = i.lowerText := by
  cases i <;> simp [Instr.lowerText]

/-! ### Reading operands -/

@[simp] theorem readRegName_asmName_append (r : Reg) (cs : List Char) :
    readRegName (r.asmName ++ cs) = some (r, cs) := by
  cases r <;> rfl

@[simp] theorem readRegName_asmName (r : Reg) : readRegName r.asmName = some (r, []) := by
  cases r <;> rfl

@[simp] theorem dropSpaces_asmName_append (r : Reg) (cs : List Char) :
    dropSpaces (r.asmName ++ cs) = r.asmName ++ cs := by
  cases r <;> rfl

@[simp] theorem hexValue_hexChar (d : BitVec 4) : hexValue (hexChar d) = some d.toNat := by
  revert d; decide

/-- The four digits of an immediate read back to its value. -/
@[simp] theorem readImm_immText (imm : Word) : readImm (immText imm) = some imm.toNat := by
  have := imm.isLt
  simp only [immText, readImm, readHexDigits, hexValue_hexChar, Option.bind_some,
    BitVec.extractLsb'_toNat, Nat.shiftRight_eq_div_pow]
  congr 1
  omega

/-- R95: the lower-case text reads as the instruction's line. -/
theorem readLowerLine_lowerText (i : Instr) : readLowerLine i.lowerText = some i.toAsm := by
  cases i with
  | xor rd rs => simp [Instr.lowerText, readLowerLine, readXorOperands, Instr.toAsm]
  | mov rd imm => simp [Instr.lowerText, readLowerLine, readMovOperands, Instr.toAsm]
  | imul rh rl imm => simp [Instr.lowerText, readLowerLine, readImulOperands, Instr.toAsm]

/-! ### Assembling -/

/-- R95: the line of an instruction assembles to it. -/
theorem assemble_toAsm (i : Instr) : i.toAsm.assemble = some i := by
  have hwf : i.toAsm.wf = true := i.wf_true
  rw [AsmLine.assemble.eq_def, if_pos hwf]
  cases i <;> simp [Instr.toAsm]

/-- R95: an ill-formed line is refused. -/
theorem assemble_of_illFormed {l : AsmLine} (h : l.wf = false) : l.assemble = none := by
  simp [AsmLine.assemble, h]

/-- R95, "case is not significant": a text that is the instruction's but for case assembles to
it. -/
theorem assembleText_of_lowerCase {text : List Char} {i : Instr}
    (h : lowerCase text = i.lowerText) : assembleText text = some i := by
  rw [assembleText, h, readLowerLine_lowerText, Option.bind_some, assemble_toAsm]

theorem immFits_of_wide {imm : Nat} (h : 65536 ≤ imm) : immFits imm = false :=
  decide_eq_false (by omega)

/-- Settles O8: the texts by `assembleText_of_lowerCase`, the refusals by the check of
`AsmLine.wf` that fails. -/
theorem assemblerReadsItsOwnText : Obligations.AssemblerReadsItsOwnText := by
  refine ⟨fun i => ⟨?_, ?_⟩, fun i text h => ?_, assemble_toAsm, fun rh rl rl2 imm hne => ?_,
    fun rh rl rd imm hwide => ⟨?_, ?_⟩⟩
  · exact assembleText_of_lowerCase (lowerCase_asmText i)
  · rw [lowerCase_asmText]
    exact assembleText_of_lowerCase (lowerCase_lowerText i)
  · exact assembleText_of_lowerCase (h.trans (lowerCase_asmText i))
  · exact assemble_of_illFormed (by simp [AsmLine.wf, hne])
  · exact assemble_of_illFormed (by simp [AsmLine.wf, immFits_of_wide hwide])
  · exact assemble_of_illFormed (by simp [AsmLine.wf, immFits_of_wide hwide])

end Sys2Proof
end

section
/-! PROOFS. What a byte does not look at: the events presented after it (R61), and, under
`high_wins`, the count of free values (R232, D13). -/

namespace Sys2Proof.Machine

/-- The same machine with other events presented and another count of free values. -/
def State.mapOutside (g : List Event → List Event) (h : Nat → Nat) (s : State) : State :=
  { s with inputs := g s.inputs, draws := h s.draws }

section
variable {g : List Event → List Event} {h : Nat → Nat} {s : State}

/-- A machine draws no free value whose count is changed. -/
def State.DrawsKept (h : Nat → Nat) (s : State) : Prop := s.config.imulSameReg = .draw → h = id

theorem exec_mapOutside (hs : s.DrawsKept h) (i : Instr) :
    exec i (s.mapOutside g h) = thenNext (exec i s) (State.mapOutside g h) := by
  cases i with
  | xor rd rs => rfl
  | mov rd imm => rfl
  | imul rh rl imm =>
    rw [exec_imul, exec_imul, thenNext_next, State.imulled, State.imulled]
    by_cases hdraw : rh = rl ∧ s.config.imulSameReg = .draw
    · obtain ⟨hsame, hcfg⟩ := hdraw
      obtain rfl := hs hcfg
      rw [settleSameReg_of_draw _ hsame (by exact hcfg),
        settleSameReg_of_draw _ hsame (by exact hcfg)]
      rfl
    · rw [settleSameReg_of_not _ (by exact hdraw), settleSameReg_of_not _ (by exact hdraw)]
      rfl

theorem complete_mapOutside (hs : s.DrawsKept h) :
    (s.mapOutside g h).complete = thenNext s.complete (State.mapOutside g h) := by
  have hdesc : (s.mapOutside g h).descriptor = s.descriptor := rfl
  cases hi : s.descriptor with
  | none => simp [State.complete, hdesc, hi, thenNext]
  | some i =>
    obtain ⟨t, hexec, hdone⟩ := complete_next hi
    rw [complete_of_descriptor (hdesc.trans hi), exec_mapOutside hs, hexec, hdone]
    rfl

theorem completeIfLast_mapOutside (hs : s.DrawsKept h) :
    (s.mapOutside g h).completeIfLast = thenNext s.completeIfLast (State.mapOutside g h) := by
  by_cases hx : s.pending.expect = 0#2
  · rw [completeIfLast_of_zero (by exact hx), completeIfLast_of_zero hx, complete_mapOutside hs]
  · rw [completeIfLast_of_more (by exact hx), completeIfLast_of_more hx]
    rfl

theorem takeOpcode_mapOutside (p : Nat) (b : Byte) :
    (s.mapOutside g h).takeOpcode p b = (s.takeOpcode p b).mapOutside g h := by
  unfold State.takeOpcode
  split <;> rfl

theorem immediated_mapOutside (b : Byte) :
    (s.mapOutside g h).immediated b = (s.immediated b).mapOutside g h := by
  by_cases hter : s.pending.tertiary = true
  · simp only [State.immediated, State.mapOutside, hter, if_true]
    rfl
  · by_cases hsize : s.pending.operandSizeFlag = true
    · simp only [State.immediated, State.mapOutside, hter, hsize, if_true]
      rfl
    · simp only [State.immediated, State.mapOutside, hter, hsize]
      rfl

theorem takeRunning_mapOutside (hs : s.DrawsKept h) (p : Nat) (b : Byte) :
    (s.mapOutside g h).takeRunning p b = thenNext (s.takeRunning p b) (State.mapOutside g h) := by
  cases hd : s.dstate with
  | operandByte =>
    rw [takeRunning_operandByte (by exact hd), takeRunning_operandByte hd, takeOpcode_mapOutside,
      thenNext_next]
  | addressingByte =>
    cases hb : isRegisterForm b with
    | true =>
      rw [takeRunning_registerForm (by exact hd) p hb, takeRunning_registerForm hd p hb]
      exact completeIfLast_mapOutside (s := s.addressed b) hs
    | false =>
      rw [takeRunning_memoryForm (by exact hd) p hb, takeRunning_memoryForm hd p hb]
      rfl
  | immediateByte =>
    have himm : (s.immediated b).DrawsKept h := by rw [immediated_frame]; exact hs
    rw [takeRunning_immediateByte (by exact hd), takeRunning_immediateByte hd,
      immediated_mapOutside, completeIfLast_mapOutside himm]

theorem takeByte_running (hrun : s.status = .running) (b : Byte) :
    s.takeByte b = s.advancePos.takeRunning s.pos b := by
  simp [State.takeByte, hrun]

theorem takeByte_terminal (hover : s.status ≠ .running) (b : Byte) : s.takeByte b = .next s := by
  cases hs : s.status <;> simp_all [State.takeByte]

theorem takeByte_mapOutside (hs : s.DrawsKept h) (b : Byte) :
    (s.mapOutside g h).takeByte b = thenNext (s.takeByte b) (State.mapOutside g h) := by
  by_cases hrun : s.status = .running
  · rw [takeByte_running (by exact hrun), takeByte_running hrun]
    exact takeRunning_mapOutside (s := s.advancePos) hs s.pos b
  · rw [takeByte_terminal (by exact hrun), takeByte_terminal hrun, thenNext_next]

theorem endRunning_mapOutside :
    (s.mapOutside g h).endRunning = s.endRunning.mapOutside g h := by
  by_cases hd : s.dstate = .operandByte
  · rw [endRunning_boundary (by exact hd), endRunning_boundary hd]
    rfl
  · rw [endRunning_inside (by exact hd), endRunning_inside hd]
    rfl

theorem endStream_mapOutside : (s.mapOutside g h).endStream = s.endStream.mapOutside g h := by
  cases hs : s.status with
  | running =>
    simp only [State.endStream, State.mapOutside, hs]
    exact endRunning_mapOutside
  | done => simp [State.endStream, State.mapOutside, hs]
  | error => simp [State.endStream, State.mapOutside, hs]

theorem takeEvent_mapOutside (hs : s.DrawsKept h) (e : Event) :
    (s.mapOutside g h).takeEvent e = thenNext (s.takeEvent e) (State.mapOutside g h) := by
  cases e with
  | byte b => exact takeByte_mapOutside hs b
  | endOfStream => exact congrArg _ endStream_mapOutside
  | reset => rfl

/-- R232: a step does the same whatever the count of free values is, where none is drawn. -/
theorem step_mapDraws (hs : s.DrawsKept h) :
    step (s.mapOutside id h) = thenNext (step s) (State.mapOutside id h) := by
  cases hin : s.inputs with
  | nil => rw [step_idle (by exact hin), step_idle hin, thenNext_next]
  | cons e rest =>
    rw [step_event (s := s.mapOutside id h) (by exact hin), step_event hin]
    exact takeEvent_mapOutside (g := id) (s := { s with inputs := rest }) hs e

end

/-! ### The count of free values under `high_wins` -/

/-- R112 to R115: what an opcode byte leaves alone. -/
theorem takeOpcode_frame (s : State) (p : Nat) (b : Byte) :
    s.takeOpcode p b = { s with
      dstate := (s.takeOpcode p b).dstate
      pending := (s.takeOpcode p b).pending
      status := (s.takeOpcode p b).status
      err := (s.takeOpcode p b).err } := by
  unfold State.takeOpcode
  split <;> rfl

@[simp] theorem takeOpcode_regs (s : State) (p : Nat) (b : Byte) :
    (s.takeOpcode p b).regs = s.regs := by
  rw [takeOpcode_frame]

@[simp] theorem takeOpcode_inputs (s : State) (p : Nat) (b : Byte) :
    (s.takeOpcode p b).inputs = s.inputs := by
  rw [takeOpcode_frame]

@[simp] theorem takeOpcode_draws (s : State) (p : Nat) (b : Byte) :
    (s.takeOpcode p b).draws = s.draws := by
  rw [takeOpcode_frame]

@[simp] theorem takeOpcode_config (s : State) (p : Nat) (b : Byte) :
    (s.takeOpcode p b).config = s.config := by
  rw [takeOpcode_frame]

/-- R6: no step writes the parameter. -/
theorem step_config {s t : State} (hstep : step s = .next t) : t.config = s.config := by
  cases step_cases hstep with
  | idle h ht => rw [ht]
  | ignored e rest h hs he ht => rw [ht]
  | reset rest h ht => rw [ht]; rfl
  | ended rest h hs ht =>
    rw [ht, State.endRunning]
    split <;> rfl
  | opcode b rest h hs hd ht => rw [ht, takeOpcode_config]
  | memoryForm b rest h hs hd hb ht => rw [ht]; rfl
  | goesOn b rest u h hs hu hx ht =>
    obtain ⟨hd, -, rfl⟩ := eq_operandTaken_of_counted hu
    rw [ht, operandTaken_frame (by exact hd)]
  | completes b rest u v i h hs hu hx hi hv ht =>
    obtain ⟨hd, -, rfl⟩ := eq_operandTaken_of_counted hu
    rw [ht, State.endInstruction_config, exec_frame hv, operandTaken_frame (by exact hd)]

theorem runSteps_mapDraws {h : Nat → Nat} {n : Nat} {s t : State} (hs : s.DrawsKept h)
    (hrun : runSteps n s = .next t) :
    runSteps n (s.mapOutside id h) = .next (t.mapOutside id h) := by
  induction n generalizing s with
  | zero => cases hrun; rfl
  | succ n ih =>
    cases hstep : step s with
    | next u =>
      rw [runSteps_succ n hstep] at hrun
      rw [runSteps_succ n ((step_mapDraws hs).trans (by rw [hstep, thenNext_next]))]
      exact ih (by rwa [State.DrawsKept, step_config hstep]) hrun
    | fault r => simp [runSteps, hstep] at hrun
    | refused r => simp [runSteps, hstep] at hrun

/-- Settles O28: after the Reset the two machines differ in the count of free values alone, which
`runSteps_mapDraws` carries through the run. -/
theorem sameStreamSameState : Obligations.SameStreamSameState := by
  intro s1 s2 t events n hhigh hcfg h1 h2 hrun
  rw [runSteps_succ n (step_reset_eq h1)] at hrun
  rw [runSteps_succ n (step_reset_eq h2), hcfg]
  have hkept : State.DrawsKept (fun _ => s2.draws)
      { State.reset with inputs := events, config := s1.config, draws := s1.draws } :=
    fun hdraw => absurd (hhigh.symm.trans hdraw) (by decide)
  exact runSteps_mapDraws hkept hrun

end Sys2Proof.Machine
end

section
/-! PROOFS. Streams of bytes: an instruction's bytes but the last leave the machine inside it, the
last one runs it (R110 to R125, R231). -/

namespace Sys2Proof

/-- The bytes of an instruction before its last one. -/
def Instr.leadingBytes (i : Instr) : List Byte := (encode i).dropLast

/-- The byte in whose step an instruction runs (R125). -/
def Instr.lastByte : Instr → Byte
  | .xor rd rs => addressingByte rs rd
  | .mov _ imm => immHigh imm
  | .imul _ _ imm => immHigh imm

theorem encode_eq_leadingBytes (i : Instr) : encode i = i.leadingBytes ++ [i.lastByte] := by
  cases i <;> rfl

namespace Machine

/-! ### Bytes inside an instruction -/

/-- Taking the bytes `bs` leads from the first state to the second, and after each of them the
session runs and stands inside an instruction. -/
inductive State.StaysInside : State → List Byte → State → Prop
  | nil (s : State) : State.StaysInside s [] s
  | cons {s t u : State} {b : Byte} {bs : List Byte} (hb : s.takeByte b = .next t)
      (hrun : t.status = .running) (hd : t.dstate ≠ .operandByte)
      (hrest : State.StaysInside t bs u) : State.StaysInside s (b :: bs) u

/-- A byte uses up no event but itself. -/
theorem takeByte_inputs {s t : State} {b : Byte} (h : s.takeByte b = .next t) :
    t.inputs = s.inputs := by
  have hkeep := takeByte_mapOutside (s := s) (g := fun _ => s.inputs) (h := id) (fun _ => rfl) b
  have hself : s.takeByte b = .next { t with inputs := s.inputs } := hkeep.trans (by rw [h]; rfl)
  have hsame : t = { t with inputs := s.inputs } :=
    Host.Outcome.next.inj (h.symm.trans hself)
  rw [hsame]

/-- The machine's own steps over those bytes, presented before its other events. -/
theorem State.StaysInside.runSteps_eq {s u : State} {bs : List Byte} (h : s.StaysInside bs u) :
    runSteps bs.length { s with inputs := byteEvents bs ++ s.inputs } = .next u := by
  induction h with
  | nil s => rfl
  | @cons s t u b bs hb hrun hd hrest ih =>
    have hstep : step { s with inputs := byteEvents (b :: bs) ++ s.inputs } =
        .next { t with inputs := byteEvents bs ++ s.inputs } := by
      refine (step_event rfl).trans ((takeByte_mapOutside (s := s) (h := id)
        (g := fun _ => byteEvents bs ++ s.inputs) (fun _ => rfl) b).trans ?_)
      rw [hb]
      rfl
    rw [List.length_cons, runSteps_succ _ hstep, ← takeByte_inputs hb, ih]

theorem State.StaysInside.inputs_eq {s u : State} {bs : List Byte} (h : s.StaysInside bs u) :
    u.inputs = s.inputs := by
  induction h with
  | nil s => rfl
  | cons hb hrun hd hrest ih => exact ih.trans (takeByte_inputs hb)

theorem State.StaysInside.inside {s u : State} {bs : List Byte} (h : s.StaysInside bs u)
    (hne : bs ≠ []) : u.status = .running ∧ u.dstate ≠ .operandByte := by
  induction h with
  | nil s => exact absurd rfl hne
  | cons hb hrun hd hrest ih =>
    cases hrest with
    | nil => exact ⟨hrun, hd⟩
    | cons hb' hrun' hd' hrest' => exact ih (List.cons_ne_nil _ _)

/-- The same, from the state to which they are presented. -/
theorem State.StaysInside.runSteps_of_presented {s u : State} {bs : List Byte}
    {events : List Event} (h : State.StaysInside { s with inputs := events } bs u)
    (hin : s.inputs = byteEvents bs ++ events) : runSteps bs.length s = .next u := by
  have hrun := h.runSteps_eq
  rwa [show ({ s with inputs := byteEvents bs ++ events } : State) = s by rw [← hin]] at hrun

/-- `takeAllButLast` passes over bytes that stay inside an instruction and leaves the byte that
ends it as the next event. -/
theorem State.StaysInside.takeAllButLast_eq {s u v : State} {bs : List Byte}
    (h : s.StaysInside bs u) {b : Byte} (hb : u.takeByte b = .next v)
    (hd : v.dstate = .operandByte) (rest : List Byte) :
    State.takeAllButLast (bs ++ b :: rest) s = u.present (.byte b) := by
  induction h with
  | nil s => simp [State.takeAllButLast, hb, hd]
  | cons hb' hrun' hd' hrest' ih => simp [State.takeAllButLast, hb', hrun', hd', ih hb]

/-! ### One byte at each decoder state -/

theorem takeByte_opcode {s : State} (hs : s.AtBoundary) (b : Byte) :
    s.takeByte b = .next (s.advancePos.takeOpcode s.pos b) := by
  obtain ⟨hrun, hd⟩ := hs
  rw [takeByte_running hrun, takeRunning_operandByte (by exact hd)]

theorem takeByte_registerForm {s : State} (hrun : s.status = .running)
    (hd : s.dstate = .addressingByte) {b : Byte} (hb : isRegisterForm b = true) :
    s.takeByte b = (s.advancePos.addressed b).completeIfLast := by
  rw [takeByte_running hrun, takeRunning_registerForm (by exact hd) _ hb]

theorem takeByte_immediate {s : State} (hrun : s.status = .running)
    (hd : s.dstate = .immediateByte) (b : Byte) :
    s.takeByte b = (s.advancePos.immediated b).completeIfLast := by
  rw [takeByte_running hrun, takeRunning_immediateByte (by exact hd)]

/-- R112 to R114: an opcode byte with an instruction begins it. -/
theorem takeOpcode_of_some {s : State} {p : Nat} {b : Byte} {o : Opcode} (h : opcodeOf b = some o) :
    (s.takeOpcode p b).status = s.status := by
  cases o with
  | mov rd => rw [takeOpcode_of_mov h]; rfl
  | xor => rw [takeOpcode_of_xor h]; rfl
  | imul => rw [takeOpcode_of_imul h]; rfl

theorem State.StaysInside.opcode {s : State} (hs : s.AtBoundary) {b : Byte} {o : Opcode}
    (hb : opcodeOf b = some o) : s.StaysInside [b] (s.advancePos.takeOpcode s.pos b) := by
  have hbyte := takeByte_opcode hs b
  obtain ⟨hrun, -⟩ := hs
  have hinside := (takeOpcode_of_some (s := s.advancePos) (p := s.pos) hb).trans hrun
  exact .cons hbyte hinside (takeOpcode_of_running hinside).1 (.nil _)

theorem State.StaysInside.append_byte {s t u : State} {bs : List Byte} {b : Byte}
    (h : s.StaysInside bs t) (hb : t.takeByte b = .next u) (hrun : u.status = .running)
    (hd : u.dstate ≠ .operandByte) : s.StaysInside (bs ++ [b]) u := by
  induction h with
  | nil s => exact .cons hb hrun hd (.nil u)
  | cons hb' hrun' hd' hrest' ih => exact .cons hb' hrun' hd' (ih hb)

/-- An IMUL inside its immediate, begun at the boundary `s`: `count` bytes counted, `shadow` so
far, `expect` bytes to come. -/
def State.imulInside (s : State) (rh rl : Reg) (count : Nat) (shadow : Word) (expect : BitVec 2) :
    State :=
  { s with
    dstate := .immediateByte
    pos := s.pos + count
    pending := { opcodeClass := .imul, operandSizeFlag := true, directionFlag := false,
                 destReg := rl, srcReg := rh, shadow := shadow, expect := expect,
                 tertiary := true } }

theorem State.StaysInside.mov {s : State} (hs : s.AtBoundary) (rd : Reg) (b0 : Byte) :
    s.StaysInside [movOpcode rd, b0] (s.halfFolded rd b0 s.inputs) := by
  have hopcode := State.StaysInside.opcode hs (opcodeOf_movOpcode rd)
  rw [takeOpcode_of_mov (opcodeOf_movOpcode rd)] at hopcode
  obtain ⟨hrun, -⟩ := hs
  have hmore : (2#2 - 1#2 : BitVec 2) ≠ 0#2 := by decide
  refine hopcode.append_byte ?_ (by exact hrun) (by simp)
  rw [takeByte_immediate (by exact hrun) rfl, immediated_mov rfl rfl,
    completeIfLast_of_more (by exact hmore)]
  rfl

theorem State.StaysInside.imulAddressed {s : State} (hs : s.AtBoundary) (rh rl : Reg) :
    s.StaysInside [0x69#8, addressingByte rh rl] (s.imulInside rh rl 2 s.pending.shadow 2#2) := by
  have hopcode := State.StaysInside.opcode hs opcodeOf_imul
  rw [takeOpcode_of_imul opcodeOf_imul] at hopcode
  obtain ⟨hrun, -⟩ := hs
  have hmore : (3#2 - 1#2 : BitVec 2) ≠ 0#2 := by decide
  refine hopcode.append_byte ?_ (by exact hrun) (by simp [State.imulInside])
  rw [takeByte_registerForm (by exact hrun) rfl (isRegisterForm_addressingByte rh rl),
    completeIfLast_of_more (by exact hmore)]
  simp [State.addressed, State.assignOperands, State.countDown, State.setExpect, State.beginImul,
    State.advancePos, State.imulInside]

theorem State.StaysInside.imulFolded {s : State} (hs : s.AtBoundary) (rh rl : Reg) (b0 : Byte) :
    s.StaysInside [0x69#8, addressingByte rh rl, b0]
      (s.imulInside rh rl 3 (foldByte s.pending.shadow b0) 1#2) := by
  have haddr := State.StaysInside.imulAddressed hs rh rl
  obtain ⟨hrun, -⟩ := hs
  have hmore : (2#2 - 1#2 : BitVec 2) ≠ 0#2 := by decide
  refine haddr.append_byte ?_ (by exact hrun) (by simp [State.imulInside])
  rw [takeByte_immediate (by exact hrun) rfl, immediated_imul rfl,
    completeIfLast_of_more (by exact hmore)]
  simp [State.imulInside, State.advancePos]

/-! ### One instruction -/

/-- The state in which the last byte of `i` is due, begun at the boundary `s`. -/
def State.awaitingLast (s : State) : Instr → State
  | .xor _ _ => s.advancePos.beginXor 0x31#8
  | .mov rd imm => s.halfFolded rd (immLow imm) s.inputs
  | .imul rh rl imm => s.imulInside rh rl 3 (foldByte s.pending.shadow (immLow imm)) 1#2

theorem staysInside_leadingBytes {s : State} (hs : s.AtBoundary) (i : Instr) :
    s.StaysInside i.leadingBytes (s.awaitingLast i) := by
  cases i with
  | xor rd rs =>
    have hopcode := State.StaysInside.opcode hs opcodeOf_xor
    rwa [takeOpcode_of_xor opcodeOf_xor] at hopcode
  | mov rd imm => exact .mov hs rd (immLow imm)
  | imul rh rl imm => exact .imulFolded hs rh rl (immLow imm)

/-- R36: the decoded state holds the descriptor of its instruction. -/
theorem descriptor_decoded (s : State) (i : Instr) (rest : List Event) :
    (s.decoded i rest).descriptor = some i := by
  cases i with
  | xor rd rs => rfl
  | mov rd imm => simp [State.decoded, State.descriptor, State.readReg]
  | imul rh rl imm => rfl

/-- R118 to R125: the last byte leaves the decoded state, and completes. -/
theorem takeByte_lastByte {s : State} (hs : s.AtBoundary) (i : Instr) :
    (s.awaitingLast i).takeByte i.lastByte = (s.decoded i s.inputs).complete := by
  have hlast : (1#2 - 1#2 : BitVec 2) = 0#2 := by decide
  obtain ⟨hrun, -⟩ := hs
  cases i with
  | xor rd rs =>
    refine (takeByte_registerForm (s := s.advancePos.beginXor 0x31#8) hrun rfl
      (isRegisterForm_addressingByte rs rd)).trans ?_
    rw [completeIfLast_of_zero (by exact hlast)]
    simp [State.addressed, State.assignOperands, State.countDown, State.setExpect, State.beginXor,
      State.advancePos, State.decoded]
  | mov rd imm =>
    have hfold := foldByte_foldByte (s.regs.get rd) (immLow imm) (immHigh imm)
    refine (takeByte_immediate (by exact hrun) rfl _).trans ?_
    rw [immediated_mov rfl rfl, completeIfLast_of_zero (by exact hlast)]
    simp [State.awaitingLast, State.halfFolded, State.beginMov, State.advancePos, State.decoded,
      Instr.lastByte, hfold]
  | imul rh rl imm =>
    have hfold := foldByte_foldByte s.pending.shadow (immLow imm) (immHigh imm)
    refine (takeByte_immediate (by exact hrun) rfl _).trans ?_
    rw [immediated_imul rfl, completeIfLast_of_zero (by exact hlast)]
    simp [State.awaitingLast, State.imulInside, State.advancePos, State.decoded, Instr.lastByte,
      hfold]

/-- R125, R140: completing the decoded state runs its instruction. -/
theorem complete_decoded (s : State) (i : Instr) (rest : List Event) :
    ∃ t, exec i (s.decoded i rest) = .next t ∧
      (s.decoded i rest).complete = .next t.endInstruction :=
  complete_next (descriptor_decoded s i rest)

@[simp] theorem decoded_status (s : State) (i : Instr) (rest : List Event) :
    (s.decoded i rest).status = s.status := by
  cases i <;> rfl

@[simp] theorem decoded_inputs (s : State) (i : Instr) (rest : List Event) :
    (s.decoded i rest).inputs = rest := by
  cases i <;> rfl

@[simp] theorem decoded_pos (s : State) (i : Instr) (rest : List Event) :
    (s.decoded i rest).pos = s.pos + i.length := by
  cases i <;> rfl

@[simp] theorem decoded_err (s : State) (i : Instr) (rest : List Event) :
    (s.decoded i rest).err = s.err := by
  cases i <;> rfl

@[simp] theorem decoded_config (s : State) (i : Instr) (rest : List Event) :
    (s.decoded i rest).config = s.config := by
  cases i <;> rfl

/-- What an executed decoded instruction keeps of the boundary it was read from. -/
theorem exec_decoded_frame {s t : State} {i : Instr} {rest : List Event}
    (h : exec i (s.decoded i rest) = .next t) :
    t.status = s.status ∧ t.inputs = rest ∧ t.pos = s.pos + i.length ∧ t.err = s.err ∧
      t.config = s.config := by
  rw [exec_frame h]
  simp

/-- C4: the executor leaves the same registers and count from the decoded state as from any state
with the boundary's registers, although a MOV's immediate stands in its register already. -/
theorem exec_decoded_congr {s s0 t u : State} {i : Instr} {rest : List Event}
    (hregs : s.regs = s0.regs) (hcfg : s.config = s0.config) (hdraws : s.draws = s0.draws)
    (ht : exec i (s.decoded i rest) = .next t) (hu : exec i s0 = .next u) :
    t.regs = u.regs ∧ t.draws = u.draws := by
  cases i with
  | xor rd rs => exact exec_congr _ (s1 := s.decoded (.xor rd rs) rest) hregs hcfg hdraws ht hu
  | mov rd imm =>
    cases ht
    cases hu
    exact ⟨by simp [State.decoded, hregs], hdraws⟩
  | imul rh rl imm =>
    exact exec_congr _ (s1 := s.decoded (.imul rh rl imm) rest) hregs hcfg hdraws ht hu

@[simp] theorem byteEvents_append (bs cs : List Byte) :
    byteEvents (bs ++ cs) = byteEvents bs ++ byteEvents cs :=
  List.map_append

/-- The state awaiting the last byte does not depend on what is presented. -/
theorem awaitingLast_of_inputs (s : State) (i : Instr) (events : List Event) :
    ({ s with inputs := events } : State).awaitingLast i =
      { s.awaitingLast i with inputs := events } := by
  cases i <;> rfl

/-- The decoded state does not depend on what was presented before. -/
theorem decoded_of_inputs (s : State) (i : Instr) (events rest : List Event) :
    ({ s with inputs := events } : State).decoded i rest = s.decoded i rest := by
  cases i <;> rfl

theorem runSteps_one (s : State) : runSteps 1 s = step s := by
  cases h : step s <;> simp [runSteps, h]

/-- R110 to R125: the steps of one instruction's bytes run it in its decoded state. -/
theorem runSteps_encode {s : State} (hs : s.AtBoundary) {i : Instr} {rest : List Event}
    (hin : s.inputs = byteEvents (encode i) ++ rest) :
    ∃ t, exec i (s.decoded i rest) = .next t ∧ runSteps i.length s = .next t.endInstruction := by
  obtain ⟨t, hexec, hdone⟩ := complete_decoded s i rest
  refine ⟨t, hexec, ?_⟩
  rw [encode_eq_leadingBytes, byteEvents_append, List.append_assoc] at hin
  have hlead := (staysInside_leadingBytes (s := { s with inputs := .byte i.lastByte :: rest })
    hs i).runSteps_of_presented hin
  have hlast : step (({ s with inputs := .byte i.lastByte :: rest } : State).awaitingLast i) =
      .next t.endInstruction := by
    rw [awaitingLast_of_inputs, step_event rfl]
    have htake := takeByte_lastByte (s := { s with inputs := rest }) hs i
    rw [awaitingLast_of_inputs, decoded_of_inputs] at htake
    exact htake.trans hdone
  have hlength : i.length = i.leadingBytes.length + 1 := by
    rw [← encode_length, encode_eq_leadingBytes, List.length_append, List.length_singleton]
  rw [hlength, runSteps_add _ 1 hlead, runSteps_one, hlast]

/-- Settles O19: the bytes are the encoding of their instruction (`eq_encode_of_decode`), whose run
is `runSteps_encode`. -/
theorem presentedBytesRunTheirInstruction : Obligations.PresentedBytesRunTheirInstruction := by
  intro s bytes tail i rest hs hdecode hin
  rw [eq_encode_of_decode hdecode, byteEvents_append, List.append_assoc] at hin
  obtain ⟨t, hexec, hrun⟩ := runSteps_encode hs hin
  obtain ⟨hrunning, -⟩ := hs
  obtain ⟨hstatus, -⟩ := exec_decoded_frame hexec
  exact ⟨t, hexec, hrun, hstatus.trans hrunning, rfl⟩

end Machine
end Sys2Proof
end

section
/-! PROOFS. Streams of whole instructions (R64, R68, R210). -/

namespace Sys2Proof.Machine

theorem execAll_cons {i : Instr} {is : List Instr} {s t : State} (h : exec i s = .next t) :
    execAll (i :: is) s = execAll is t := by
  simp [execAll, h]

/-- R64, R68: the steps of several instructions' bytes run them in stream order. -/
theorem runSteps_encodeAll {is : List Instr} {s s0 : State} {rest : List Event}
    (hs : s.AtBoundary) (hin : s.inputs = byteEvents (encodeAll is) ++ rest)
    (hregs : s.regs = s0.regs) (hcfg : s.config = s0.config) (hdraws : s.draws = s0.draws) :
    ∃ t u, runSteps (encodeAll is).length s = .next t ∧ execAll is s0 = .next u ∧ t.AtBoundary ∧
      t.regs = u.regs ∧ t.draws = u.draws ∧ t.pos = s.pos + (encodeAll is).length ∧
      t.err = s.err ∧ t.inputs = rest := by
  induction is generalizing s s0 with
  | nil => exact ⟨s, s0, rfl, rfl, hs, hregs, hdraws, rfl, rfl, hin⟩
  | cons i is ih =>
    rw [encodeAll, byteEvents_append, List.append_assoc] at hin
    obtain ⟨t, hexec, hrun⟩ := runSteps_encode hs hin
    obtain ⟨u, hu⟩ := exec_next i s0
    obtain ⟨htregs, htdraws⟩ := exec_decoded_congr hregs hcfg hdraws hexec hu
    obtain ⟨hstatus, hinputs, hpos, herr, htcfg⟩ := exec_decoded_frame hexec
    have hucfg : u.config = s0.config := by rw [exec_frame hu]
    obtain ⟨hrunning, -⟩ := hs
    obtain ⟨t', u', hrun', hexec', hs', hregs', hdraws', hpos', herr', hin'⟩ :=
      ih (s := t.endInstruction) (s0 := u) ⟨hstatus.trans hrunning, rfl⟩ hinputs htregs
        (htcfg.trans (hcfg.trans hucfg.symm)) htdraws
    refine ⟨t', u', ?_, ?_, hs', hregs', hdraws', ?_, herr'.trans herr, hin'⟩
    · rw [encodeAll, List.length_append, encode_length, runSteps_add _ _ hrun, hrun']
    · rw [execAll_cons hu, hexec']
    · rw [hpos', State.endInstruction_pos, hpos, encodeAll, List.length_append, encode_length,
        Nat.add_assoc]

/-- Settles O20: the instructions by `runSteps_encodeAll`, then the `End` at the boundary they
reach. -/
theorem streamOfInstructionsEndsDone : Obligations.StreamOfInstructionsEndsDone := by
  intro is s rest hs hin
  rw [streamEvents, List.append_assoc] at hin
  obtain ⟨t, u, hrun, hexec, ht, hregs, hdraws, hpos, herr, hin'⟩ :=
    runSteps_encodeAll (s0 := s) hs hin rfl rfl rfl
  refine ⟨{ t with inputs := rest, status := .done }, u, ?_, hexec, rfl, hregs, hdraws, hpos, herr,
    rfl⟩
  rw [runSteps_add _ 1 hrun, runSteps_one]
  exact step_endAtBoundary ht hin'

end Sys2Proof.Machine
end

section
/-! PROOFS. Streams that the decoder rejects (R115, R117, R201 to R207). -/

namespace Sys2Proof.Machine

/-- Every way in which the decoder rejects a list of bytes. -/
inductive RejectCase : List Byte → DecodeReject → Prop
  | noBytes : RejectCase [] .truncated
  /-- R115. -/
  | opcode {b : Byte} {rest : List Byte} (hb : opcodeOf b = none) :
      RejectCase (b :: rest) (.unsupportedOpcode b)
  /-- R117. -/
  | memoryForm {op a : Byte} {rest : List Byte}
      (hop : opcodeOf op = some .xor ∨ opcodeOf op = some .imul) (ha : isRegisterForm a = false) :
      RejectCase (op :: a :: rest) (.unsupportedAddressingMode a)
  /-- R203, after an opcode byte. -/
  | afterOpcode {op : Byte} {o : Opcode} (hop : opcodeOf op = some o) : RejectCase [op] .truncated
  /-- R203, after a MOV's first immediate byte. -/
  | insideMov (rd : Reg) (b0 : Byte) : RejectCase [movOpcode rd, b0] .truncated
  /-- R203, after an IMUL's addressing byte. -/
  | afterImulAddressing (rh rl : Reg) : RejectCase [0x69#8, addressingByte rh rl] .truncated
  /-- R203, after an IMUL's first immediate byte. -/
  | insideImul (rh rl : Reg) (b0 : Byte) :
      RejectCase [0x69#8, addressingByte rh rl, b0] .truncated

theorem rejectCase_of_decodeMov {rd : Reg} {bytes : List Byte} {r : DecodeReject}
    (h : decodeMov rd bytes = .reject r) : RejectCase (movOpcode rd :: bytes) r := by
  unfold decodeMov at h
  split at h
  · cases h
  · cases h; exact .insideMov rd _
  · cases h; exact .afterOpcode (opcodeOf_movOpcode rd)

theorem rejectCase_of_decodeXor {bytes : List Byte} {r : DecodeReject}
    (h : decodeXor 0x31#8 bytes = .reject r) : RejectCase (0x31#8 :: bytes) r := by
  unfold decodeXor at h
  split at h
  · split at h
    · cases h
    · next hmem => cases h; exact .memoryForm (.inl opcodeOf_xor) (Bool.eq_false_iff.2 hmem)
  · cases h; exact .afterOpcode opcodeOf_xor

theorem rejectCase_of_decodeImul {bytes : List Byte} {r : DecodeReject}
    (h : decodeImul 0x69#8 bytes = .reject r) : RejectCase (0x69#8 :: bytes) r := by
  unfold decodeImul at h
  split at h
  · split at h
    · next hform =>
      rw [← addressingByte_of_registerForm hform]
      split at h
      · cases h
      · cases h; exact .insideImul _ _ _
      · cases h; exact .afterImulAddressing _ _
    · next hmem => cases h; exact .memoryForm (.inr opcodeOf_imul) (Bool.eq_false_iff.2 hmem)
  · cases h; exact .afterOpcode opcodeOf_imul

theorem rejectCase_of_decode {bytes : List Byte} {r : DecodeReject}
    (h : decode bytes = .reject r) : RejectCase bytes r := by
  unfold decode at h
  split at h
  · cases h; exact .noBytes
  · split at h
    · next hop => rw [eq_movOpcode_of_opcodeOf hop]; exact rejectCase_of_decodeMov h
    · next hop => cases eq_xor_of_opcodeOf hop; exact rejectCase_of_decodeXor h
    · next hop => cases eq_imul_of_opcodeOf hop; exact rejectCase_of_decodeImul h
    · next hop => cases h; exact .opcode hop

/-- The events of a stream hold no Reset. -/
theorem noResetIn_streamEvents (bs : List Byte) (rest : List Event) :
    noResetIn (bs.length + 1) (streamEvents bs ++ rest) := by
  have hlength : (streamEvents bs).length = bs.length + 1 := by simp [streamEvents, byteEvents]
  rw [noResetIn, ← hlength, List.take_left]
  simp [streamEvents, byteEvents]

theorem streamEvents_drop (bs : List Byte) (rest : List Event) :
    (streamEvents bs ++ rest).drop (bs.length + 1) = rest := by
  have hlength : (streamEvents bs).length = bs.length + 1 := by simp [streamEvents, byteEvents]
  rw [← hlength, List.drop_left]

/-- R207: a session in Error uses up the rest of its stream. -/
theorem runSteps_errorStream {s : State} {bs : List Byte} {rest : List Event}
    (hs : s.status = .error) (hin : s.inputs = streamEvents bs ++ rest) :
    runSteps (bs.length + 1) s = .next { s with inputs := rest } := by
  rw [runSteps_terminal (by simp [hs]) (hin ▸ noResetIn_streamEvents bs rest), hin,
    streamEvents_drop]

/-- R203: a stream that ends inside an instruction. -/
theorem runSteps_truncated {s u : State} {bs : List Byte} {rest : List Event} (hne : bs ≠ [])
    (h : State.StaysInside { s with inputs := .endOfStream :: rest } bs u)
    (hin : s.inputs = streamEvents bs ++ rest) :
    runSteps (bs.length + 1) s =
      .next (({ u with inputs := rest } : State).raise .truncatedInstruction u.pos 0x00#8) := by
  obtain ⟨hrun, hd⟩ := h.inside hne
  rw [streamEvents, List.append_assoc] at hin
  rw [runSteps_add _ 1 (h.runSteps_of_presented hin), runSteps_one,
    step_endInside hrun hd h.inputs_eq]

/-- Where a truncated stream leaves the machine before its `End`. -/
theorem staysInside_of_truncated {s : State} (hs : s.AtBoundary) {bs : List Byte} (hne : bs ≠ [])
    (h : RejectCase bs .truncated) :
    ∃ u, s.StaysInside bs u ∧ u.pos = s.pos + bs.length ∧ u.draws = s.draws ∧
      u.regs = s.truncatedRegs bs := by
  cases h with
  | noBytes => exact absurd rfl hne
  | afterOpcode hop => exact ⟨_, .opcode hs hop, by simp, by simp, by simp [State.truncatedRegs]⟩
  | insideMov rd b0 => exact ⟨_, .mov hs rd b0, rfl, rfl, by simp [State.truncatedRegs]⟩
  | afterImulAddressing rh rl =>
    exact ⟨_, .imulAddressed hs rh rl, rfl, rfl, by simp [State.truncatedRegs, State.imulInside]⟩
  | insideImul rh rl b0 => exact ⟨_, .imulFolded hs rh rl b0, rfl, rfl, rfl⟩

/-- R113, R114: XOR and IMUL ask for an addressing byte. -/
theorem takeOpcode_twoOperand {op : Byte} (hop : opcodeOf op = some .xor ∨ opcodeOf op = some .imul)
    (s : State) (p : Nat) :
    (s.takeOpcode p op).dstate = .addressingByte ∧ (s.takeOpcode p op).status = s.status := by
  obtain hop | hop := hop
  · rw [takeOpcode_of_xor hop]; exact ⟨rfl, rfl⟩
  · rw [takeOpcode_of_imul hop]; exact ⟨rfl, rfl⟩

/-- Settles O21, by the way of the rejection: a byte's error stops the machine at that byte, and the
rest of the stream is used up; a truncation is found by `End`. -/
theorem rejectedStreamEndsInItsError : Obligations.RejectedStreamEndsInItsError := by
  intro s bytes r rest hs hne hdecode hin
  have hcase := rejectCase_of_decode hdecode
  cases r with
  | unsupportedOpcode b =>
    cases hcase with
    | opcode hb =>
      have hstep := step_unsupportedOpcode hs hin hb
      exact ⟨_, (runSteps_succ _ hstep).trans (runSteps_errorStream rfl rfl), rfl, rfl, rfl, rfl,
        rfl⟩
  | unsupportedAddressingMode a =>
    cases hcase with
    | @memoryForm op _ bs hop ha =>
      have hopcode := step_opcodeByte hs hin
      obtain ⟨hrun, -⟩ := hs
      obtain ⟨hd, hstatus⟩ := takeOpcode_twoOperand hop
        ({ s with inputs := streamEvents (a :: bs) ++ rest, pos := s.pos + 1 }) s.pos
      have hmem := step_memoryForm (hstatus.trans hrun) hd
        ((takeOpcode_inputs _ _ _).trans (rfl : _ = .byte a :: (streamEvents bs ++ rest))) ha
      refine ⟨_, (runSteps_succ _ hopcode).trans ((runSteps_succ _ hmem).trans
        (runSteps_errorStream rfl rfl)), rfl, ?_, rfl, ?_, ?_⟩
      · simp [State.rejection]
      · simp
      · simp
  | truncated =>
    obtain ⟨u, hstays, hpos, hdraws, hregs⟩ := staysInside_of_truncated
      (s := { s with inputs := .endOfStream :: rest }) hs hne hcase
    refine ⟨_, runSteps_truncated hne hstays hin, rfl, ?_, rfl, hdraws, ?_⟩
    · rw [State.raise_err, hpos]; rfl
    · rw [if_pos rfl]; exact hregs

end Sys2Proof.Machine
end

section
/-! PROOFS. The words of the opcode table (log entry 7) and the placing of one instruction for the
next step (log entry 6). -/

namespace Sys2Proof

/-- A table word's bytes do not depend on what stands above them. -/
theorem tableBytes_add_mul (n k w : Nat) : tableBytes n (k * 256 ^ n + w) = tableBytes n w := by
  induction n generalizing k with
  | zero => rfl
  | succ n ih =>
    have hsplit : k * 256 ^ (n + 1) = k * 256 * 256 ^ n := by ring
    have hhead : (k * 256 * 256 ^ n + w) / 256 ^ n = k * 256 + w / 256 ^ n := by
      rw [Nat.add_comm, Nat.add_mul_div_right _ _ (by positivity), Nat.add_comm]
    have hbyte : BitVec.ofNat 8 (k * 256 + w / 256 ^ n) = BitVec.ofNat 8 (w / 256 ^ n) := by
      apply BitVec.eq_of_toNat_eq
      rw [BitVec.toNat_ofNat, BitVec.toNat_ofNat]
      omega
    rw [tableBytes, tableBytes, hsplit, hhead, hbyte, ih]

theorem tableWord_lt (bytes : List Byte) : tableWord bytes < 256 ^ bytes.length := by
  induction bytes with
  | nil => decide
  | cons b bytes ih =>
    have hb : b.toNat * 256 ^ bytes.length ≤ 255 * 256 ^ bytes.length :=
      Nat.mul_le_mul_right _ (by have := b.isLt; omega)
    rw [tableWord, List.length_cons, pow_succ]
    omega

/-- Log entry 7: a table word holds its bytes in stream order. -/
theorem tableBytes_tableWord (bytes : List Byte) :
    tableBytes bytes.length (tableWord bytes) = bytes := by
  induction bytes with
  | nil => rfl
  | cons b bytes ih =>
    have hhead : (b.toNat * 256 ^ bytes.length + tableWord bytes) / 256 ^ bytes.length =
        b.toNat := by
      rw [Nat.add_comm, Nat.add_mul_div_right _ _ (by positivity),
        Nat.div_eq_of_lt (tableWord_lt bytes), Nat.zero_add]
    rw [List.length_cons, tableWord, tableBytes, hhead, BitVec.ofNat_toNat, BitVec.setWidth_eq,
      tableBytes_add_mul, ih]

/-- The stream of an instruction's table word begins with its encoding. -/
theorem tableStream_tableWord (i : Instr) :
    tableStream (8 * i.length) (tableWord (encode i)) =
      encode i ++ List.replicate (4 - i.length) 0#8 := by
  rw [tableStream, Nat.mul_div_cancel_left _ (by decide)]
  exact congrArg (· ++ _) (encode_length i ▸ tableBytes_tableWord (encode i))

theorem decodeTableWord_tableWord (i : Instr) :
    decodeTableWord (8 * i.length) (tableWord (encode i)) = some i := by
  rw [decodeTableWord, tableStream_tableWord, decode_encode]

namespace Machine

/-- Log entry 6: `withFetchWord` of an instruction's table word takes all its bytes but the last and
presents that one. -/
theorem withFetchWord_tableWord (s : State) (i : Instr) :
    s.withFetchWord (8 * i.length) (tableWord (encode i)) =
      (s.atBoundary.awaitingLast i).present (.byte i.lastByte) := by
  have hs : s.atBoundary.AtBoundary := ⟨rfl, rfl⟩
  obtain ⟨t, -, hdone⟩ := complete_decoded s.atBoundary i s.atBoundary.inputs
  have hlast := (takeByte_lastByte hs i).trans hdone
  rw [State.withFetchWord, tableStream_tableWord, encode_eq_leadingBytes, List.append_assoc]
  exact (staysInside_leadingBytes hs i).takeAllButLast_eq hlast rfl _

/-- Settles O9: the next step takes the last byte, which completes the decoded state of the
boundary. -/
theorem fetchWordRunsItsInstruction : Obligations.FetchWordRunsItsInstruction := by
  intro i s
  refine ⟨decodeTableWord_tableWord i, ?_⟩
  have hs : s.atBoundary.AtBoundary := ⟨rfl, rfl⟩
  obtain ⟨t, hexec, hdone⟩ := complete_decoded s.atBoundary i s.atBoundary.inputs
  obtain ⟨u, hu⟩ := exec_next i s
  obtain ⟨hregs, hdraws⟩ := exec_decoded_congr (s := s.atBoundary) (s0 := s) rfl rfl rfl hexec hu
  obtain ⟨hstatus, hinputs, hpos, herr, hcfg⟩ := exec_decoded_frame hexec
  refine ⟨t.endInstruction, u, ?_, hu, hregs, hdraws, ⟨hstatus, rfl⟩, hpos, hinputs, herr, hcfg⟩
  rw [withFetchWord_tableWord, step_event rfl]
  exact (takeByte_lastByte hs i).trans hdone

end Machine
end Sys2Proof
end

section
/-! PROOFS. What a completed instruction leaves in the record (R35), what stands half done between
two bytes (R235), and who uses `shadow` (R33). -/

namespace Sys2Proof.Machine

/-! ### The record after completion -/

/-- R118: an addressing byte names the registers. -/
theorem operandTaken_registers_of_addressing {s : State} (hd : s.dstate = .addressingByte)
    (b : Byte) :
    (s.operandTaken b).pending.destReg = destOf s.pending.directionFlag b ∧
      (s.operandTaken b).pending.srcReg = srcOf s.pending.directionFlag b := by
  rw [operandTaken_of_addressing hd]
  exact ⟨rfl, rfl⟩

/-- R120 to R123: an immediate byte keeps them. -/
theorem operandTaken_registers_of_immediate {s : State} (hd : s.dstate = .immediateByte)
    (b : Byte) :
    (s.operandTaken b).pending.destReg = s.pending.destReg ∧
      (s.operandTaken b).pending.srcReg = s.pending.srcReg := by
  rw [operandTaken_of_immediate hd, immediated_frame]
  exact ⟨rfl, rfl⟩

/-- Settles O50: the completing byte's own fields by the `operandTaken` laws; the executor leaves
them (`exec_pending`), and completion sets the class. -/
theorem completionKeepsTheRecord : Obligations.CompletionKeepsTheRecord := by
  intro s t b rest _ hrun hin hc hstep
  rw [step_completing hrun hin hc] at hstep
  obtain ⟨i, u, -, hexec, rfl⟩ := complete_eq_next hstep
  obtain ⟨-, -, hx⟩ := (completedBy_inputs s b rest).2 hc
  rw [State.endInstruction_dstate, State.endInstruction_pending, exec_pending hexec]
  refine ⟨rfl, rfl, hx, by simp, by simp, by simp, fun hd => ?_, fun hd => ?_⟩
  · exact operandTaken_registers_of_immediate (s := { s with inputs := rest }) hd b
  · exact operandTaken_registers_of_addressing (s := { s with inputs := rest }) hd b

/-! ### Between a MOV's two immediate bytes -/

/-- R121, R125: the second immediate byte completes the MOV. -/
theorem step_halfFolded {s : State} (hs : s.AtBoundary) (rd : Reg) (b0 b1 : Byte)
    (rest : List Event) :
    ∃ u, step (s.halfFolded rd b0 (.byte b1 :: rest)) = .next u ∧ u.dstate = .operandByte ∧
      u.regs = s.regs.set rd (imm16 b0 b1) := by
  have hlast := takeByte_lastByte (s := { s with inputs := rest }) hs (.mov rd (imm16 b0 b1))
  obtain ⟨t, hexec, hdone⟩ :=
    complete_decoded { s with inputs := rest } (.mov rd (imm16 b0 b1)) rest
  simp only [State.awaitingLast, Instr.lastByte, immLow_imm16, immHigh_imm16] at hlast
  refine ⟨t.endInstruction, ?_, rfl, ?_⟩
  · rw [step_event (halfFolded_inputs s rd b0 _)]
    exact hlast.trans hdone
  · cases hexec
    simp [State.decoded]

/-- Settles O54: two steps by `runSteps_halfFolded`, the third by `step_halfFolded`; each leaves the
registers of the boundary but for the MOV's own. -/
theorem halfFoldedMovIsSeenByNoInstruction : Obligations.HalfFoldedMovIsSeenByNoInstruction := by
  intro s rd b0 b1 rest hs hin
  have hhalf := runSteps_halfFolded hs hin
  obtain ⟨u, hstep, hd, hregs⟩ := step_halfFolded hs rd b0 b1 rest
  obtain ⟨hrun, -⟩ := hs
  refine ⟨_, u, hhalf, hrun, rfl, s.readReg_writeReg_same rd _,
    fun r hr => s.readReg_writeReg_other hr _, hstep, ?_, fun r hr => ?_, hd⟩
  · rw [State.readReg, hregs, RegFile.get_set_same]
  · rw [State.readReg, hregs, RegFile.get_set_other _ hr]
    rfl

/-! ### The users of `shadow` -/

/-- R120: of the operand bytes, only an IMUL's immediate bytes write `shadow`. -/
theorem operandTaken_shadow {s : State} (h : s.DecoderInv) {b : Byte}
    (hne : (s.operandTaken b).pending.shadow ≠ s.pending.shadow) :
    s.dstate = .immediateByte ∧ s.pending.opcodeClass = .imul := by
  cases hd : s.dstate with
  | operandByte => simp [State.operandTaken, hd] at hne
  | addressingByte => simp [operandTaken_of_addressing hd] at hne
  | immediateByte =>
    obtain ⟨hsize, -, ⟨-, hter⟩ | ⟨hclass, -⟩, -⟩ := h.of_immediateByte hd
    · rw [operandTaken_of_immediate hd, immediated_mov (by exact hter) (by exact hsize)] at hne
      exact absurd rfl hne
    · exact ⟨rfl, hclass⟩

/-- R184: of the instructions, only IMUL writes `shadow`. -/
theorem exec_descriptor_shadow {u v : State} {i : Instr} (hi : u.descriptor = some i)
    (hv : exec i u = .next v) (hne : v.pending.shadow ≠ u.pending.shadow) :
    u.pending.opcodeClass = .imul := by
  unfold State.descriptor at hi
  split at hi
  · cases hi
  · cases hi; cases hv; exact absurd rfl hne
  · cases hi; cases hv; exact absurd rfl hne
  · assumption

/-- R119: an IMUL completes on an immediate byte, not on its addressing byte. -/
theorem immediateByte_of_imul_completes {s : State} (h : s.DecoderInv)
    (hd : s.dstate ≠ .operandByte) (hclass : s.pending.opcodeClass = .imul) {b : Byte}
    (hx : (s.operandTaken b).pending.expect = 0#2) : s.dstate = .immediateByte := by
  cases hs : s.dstate with
  | operandByte => exact absurd hs hd
  | immediateByte => rfl
  | addressingByte =>
    obtain ⟨-, -, ⟨hxor, -⟩ | ⟨-, -, he⟩⟩ := h.of_addressingByte hs
    · exact absurd (hxor.symm.trans hclass) (by decide)
    · rw [operandTaken_expect h hd, he] at hx
      exact absurd hx (by decide)

@[simp] theorem takeOpcode_shadow (s : State) (p : Nat) (b : Byte) :
    (s.takeOpcode p b).pending.shadow = s.pending.shadow := by
  unfold State.takeOpcode
  split <;> rfl

@[simp] theorem endRunning_pending (s : State) : s.endRunning.pending = s.pending := by
  unfold State.endRunning
  split <;> rfl

/-- R33, the writers: only Reset and an IMUL's immediate bytes change `shadow`. -/
theorem step_shadow {s t : State} (hinv : s.Inv) (hstep : step s = .next t)
    (hne : t.pending.shadow ≠ s.pending.shadow) :
    s.inputs.head? = some .reset ∨
      (s.status = .running ∧ s.dstate = .immediateByte ∧ s.pending.opcodeClass = .imul) := by
  obtain ⟨hdec, -⟩ := hinv
  cases step_cases hstep with
  | idle h ht => exact absurd (by rw [ht]) hne
  | ignored e rest h hs he ht => exact absurd (by rw [ht]) hne
  | reset rest h ht => exact .inl (by rw [h, List.head?_cons])
  | ended rest h hs ht => exact absurd (by rw [ht, endRunning_pending]) hne
  | opcode b rest h hs hd ht => exact absurd (by rw [ht, takeOpcode_shadow]) hne
  | memoryForm b rest h hs hd hb ht => exact absurd (by rw [ht]; rfl) hne
  | goesOn b rest u h hs hu hx ht =>
    obtain ⟨-, -, rfl⟩ := eq_operandTaken_of_counted hu
    subst ht
    exact .inr ⟨hs, operandTaken_shadow (s := { s with inputs := rest }) hdec hne⟩
  | completes b rest u v i h hs hu hx hi hv ht =>
    obtain ⟨hd, -, rfl⟩ := eq_operandTaken_of_counted hu
    subst ht
    refine .inr ⟨hs, ?_⟩
    by_cases hbyte :
        (({ s with inputs := rest } : State).operandTaken b).pending.shadow = s.pending.shadow
    · have hclass := exec_descriptor_shadow hi hv (fun hsame => hne (hsame.trans hbyte))
      rw [operandTaken_opcodeClass] at hclass
      exact ⟨immediateByte_of_imul_completes (s := { s with inputs := rest }) hdec hd hclass hx,
        hclass⟩
    · exact operandTaken_shadow (s := { s with inputs := rest }) hdec hbyte

/-- R33, the readers: what `shadow` holds at a boundary reaches, through an instruction's bytes,
nothing but `shadow` itself. -/
theorem exec_decoded_setShadow {s t t' : State} {i : Instr} {v : Word} {rest : List Event}
    (h : exec i (s.decoded i rest) = .next t)
    (h' : exec i ((s.setShadow v).decoded i rest) = .next t') :
    t' = t.setShadow t'.pending.shadow := by
  cases i with
  | xor rd rs => cases h; cases h'; rfl
  | mov rd imm => cases h; cases h'; rfl
  | imul rh rl imm =>
    have hsame : t' = t := Host.Outcome.next.inj (h'.symm.trans h)
    rw [hsame]
    rfl

/-- Settles O51: the writers by `step_shadow`, the readers by `exec_decoded_setShadow` on the two
runs of the instruction's bytes. -/
theorem onlyImulUsesShadow : Obligations.OnlyImulUsesShadow := by
  refine ⟨fun s t => step_shadow, fun s i v rest hs hin => ?_⟩
  obtain ⟨t, hexec, hrun⟩ := runSteps_encode hs hin
  obtain ⟨t', hexec', hrun'⟩ := runSteps_encode (s := s.setShadow v) hs hin
  refine ⟨_, _, hrun, hrun', ?_⟩
  rw [exec_decoded_setShadow hexec hexec']
  rfl

end Sys2Proof.Machine
end

section
/-! PROOFS. What an instruction boundary leaves in the record is unobservable (R33, R35, I10, I11):
a simulation between two machines that differ in the record alone, in which only those fields must
agree that a later byte reads. -/

namespace Sys2Proof.Machine

/-- The record `q` holds, in every field that the rest of the session reads, what the machine's own
record holds. At a boundary nothing is read; an addressing byte sets the registers, and the folds
after it shift `shadow` out; an immediate byte reads the destination, and, for an IMUL, the source
and what the last fold leaves of `shadow`. -/
def State.ReadsAlike (s : State) (q : Pending) : Prop :=
  match s.dstate with
  | .operandByte => True
  | .addressingByte => s.DecoderInv ∧ ∃ rd rs v,
      q = { s.pending with destReg := rd, srcReg := rs, shadow := v }
  | .immediateByte => s.DecoderInv ∧ ∃ rs v, q = { s.pending with srcReg := rs, shadow := v } ∧
      (s.pending.opcodeClass = .imul → rs = s.pending.srcReg ∧
        (s.pending.expect = 1#2 → ∀ b, foldByte v b = foldByte s.pending.shadow b))

theorem State.ReadsAlike.of_operandByte {s : State} (hd : s.dstate = .operandByte) (q : Pending) :
    s.ReadsAlike q := by
  simp only [State.ReadsAlike, hd]

theorem State.ReadsAlike.of_addressingByte {s : State} {q : Pending} (h : s.ReadsAlike q)
    (hd : s.dstate = .addressingByte) :
    s.DecoderInv ∧ ∃ rd rs v, q = { s.pending with destReg := rd, srcReg := rs, shadow := v } := by
  simpa only [State.ReadsAlike, hd] using h

theorem State.ReadsAlike.of_immediateByte {s : State} {q : Pending} (h : s.ReadsAlike q)
    (hd : s.dstate = .immediateByte) :
    s.DecoderInv ∧ ∃ rs v, q = { s.pending with srcReg := rs, shadow := v } ∧
      (s.pending.opcodeClass = .imul → rs = s.pending.srcReg ∧
        (s.pending.expect = 1#2 → ∀ b, foldByte v b = foldByte s.pending.shadow b)) := by
  simpa only [State.ReadsAlike, hd] using h

/-! ### One byte -/

/-- R112 to R115: an opcode byte sets every field of the record that a later byte reads. -/
theorem takeOpcode_readsAlike (s : State) (q : Pending) (p : Nat) (b : Byte) :
    ∃ q', ({ s with pending := q } : State).takeOpcode p b =
        { s.takeOpcode p b with pending := q' } ∧
      ((s.takeOpcode p b).status = .running → (s.takeOpcode p b).ReadsAlike q') := by
  cases hop : opcodeOf b with
  | none =>
    rw [takeOpcode_of_none hop, takeOpcode_of_none hop]
    exact ⟨q, rfl, fun hrun => absurd hrun (by simp)⟩
  | some o =>
    cases o with
    | mov rd =>
      rw [takeOpcode_of_mov hop, takeOpcode_of_mov hop]
      exact ⟨_, rfl, fun _ => ⟨⟨rfl, rfl, .inl ⟨rfl, rfl⟩, .inr rfl⟩, q.srcReg, q.shadow, rfl,
        fun himul => absurd himul (by simp [State.beginMov])⟩⟩
    | xor =>
      rw [takeOpcode_of_xor hop, takeOpcode_of_xor hop]
      cases eq_xor_of_opcodeOf hop
      exact ⟨_, rfl, fun _ => ⟨⟨rfl, rfl, .inl ⟨rfl, rfl, rfl⟩⟩, q.destReg, q.srcReg, q.shadow,
        rfl⟩⟩
    | imul =>
      rw [takeOpcode_of_imul hop, takeOpcode_of_imul hop]
      cases eq_imul_of_opcodeOf hop
      exact ⟨_, rfl, fun _ => ⟨⟨rfl, rfl, .inr ⟨rfl, rfl, rfl⟩⟩, q.destReg, q.srcReg, q.shadow,
        rfl⟩⟩

/-- What the operand byte `b` makes of two records that read alike: the same count, records that
read alike again where bytes are still to come, and else the same descriptor. -/
def State.OperandReadsAlike (s : State) (q : Pending) (b : Byte) : Prop :=
  ∃ q', ({ s with pending := q } : State).operandTaken b =
      { s.operandTaken b with pending := q' } ∧
    q'.expect = (s.operandTaken b).pending.expect ∧
    ((s.operandTaken b).pending.expect ≠ 0#2 →
      ({ s.operandTaken b with dstate := .immediateByte } : State).ReadsAlike q') ∧
    ((s.operandTaken b).pending.expect = 0#2 →
      ({ s.operandTaken b with pending := q' } : State).descriptor = (s.operandTaken b).descriptor)

/-- R118: an addressing byte sets the registers; what is left is an IMUL's `shadow`, of which two
folds are still to come. -/
theorem addressing_readsAlike {s : State} {q : Pending} (h : s.ReadsAlike q)
    (hd : s.dstate = .addressingByte) (b : Byte) : s.OperandReadsAlike q b := by
  obtain ⟨hdec, rd, rs, v, rfl⟩ := h.of_addressingByte hd
  have hgoes := operandTaken_goesOn_decoderInv (b := b) hdec (by simp [hd])
  rw [operandTaken_of_addressing hd] at hgoes
  rw [State.OperandReadsAlike, operandTaken_of_addressing hd,
    operandTaken_of_addressing (by exact hd)]
  obtain ⟨-, -, ⟨hclass, -, he⟩ | ⟨hclass, -, he⟩⟩ := hdec.of_addressingByte hd
  · exact ⟨_, rfl, rfl, fun hx => absurd (by simp [he]) hx,
      fun _ => by simp [State.descriptor, hclass]⟩
  · have hmore : (s.advancePos.addressed b).pending.expect = 2#2 := by simp [he]
    exact ⟨_, rfl, rfl,
      fun hx => ⟨hgoes hx, _, v, rfl,
        fun _ => ⟨rfl, fun hone => absurd (hmore.symm.trans hone) (by decide)⟩⟩,
      fun hx => absurd (hmore.symm.trans hx) (by decide)⟩

/-- R121: a MOV's immediate byte reads the destination alone. -/
theorem movImmediate_readsAlike {s : State} {q : Pending} (h : s.ReadsAlike q)
    (hd : s.dstate = .immediateByte) (hclass : s.pending.opcodeClass = .mov)
    (hter : s.pending.tertiary = false) (b : Byte) : s.OperandReadsAlike q b := by
  obtain ⟨hdec, rs, v, rfl, -⟩ := h.of_immediateByte hd
  have hgoes := operandTaken_goesOn_decoderInv (b := b) hdec (by simp [hd])
  obtain ⟨hsize, -⟩ := hdec.of_immediateByte hd
  have hu := (operandTaken_of_immediate hd b).trans
    (immediated_mov (by exact hter) (by exact hsize) b)
  rw [hu] at hgoes
  rw [State.OperandReadsAlike, hu, operandTaken_of_immediate (by exact hd),
    immediated_mov (by exact hter) (by exact hsize)]
  exact ⟨_, rfl, rfl,
    fun hx => ⟨hgoes hx, rs, v, rfl,
      fun himul => absurd (hclass.symm.trans himul) (by decide)⟩,
    fun _ => by simp [State.descriptor, hclass, State.readReg]⟩

/-- R120: an IMUL's immediate bytes read `shadow`, and the second one shifts out what the first one
left of its old value. -/
theorem imulImmediate_readsAlike {s : State} {q : Pending} (h : s.ReadsAlike q)
    (hd : s.dstate = .immediateByte) (hclass : s.pending.opcodeClass = .imul)
    (hter : s.pending.tertiary = true) (b : Byte) : s.OperandReadsAlike q b := by
  obtain ⟨hdec, rs, v, rfl, hsrc⟩ := h.of_immediateByte hd
  obtain ⟨rfl, hfold⟩ := hsrc hclass
  have hgoes := operandTaken_goesOn_decoderInv (b := b) hdec (by simp [hd])
  have hu := (operandTaken_of_immediate hd b).trans (immediated_imul (by exact hter) b)
  rw [hu] at hgoes
  rw [State.OperandReadsAlike, hu, operandTaken_of_immediate (by exact hd),
    immediated_imul (by exact hter)]
  refine ⟨_, rfl, rfl, fun hx => ⟨hgoes hx, _, foldByte v b, rfl, fun _ => ⟨rfl, fun _ b' => ?_⟩⟩,
    fun hx => ?_⟩
  · exact (foldByte_foldByte _ b b').trans (foldByte_foldByte _ b b').symm
  · have hlast : s.pending.expect = 1#2 := by
      obtain ⟨-, -, -, he | he⟩ := hdec.of_immediateByte hd
      · exact he
      · exact absurd hx (by simp [he])
    simp [State.descriptor, hclass, hfold hlast b]

theorem operand_readsAlike {s : State} {q : Pending} (h : s.ReadsAlike q)
    (hd : s.dstate ≠ .operandByte) (b : Byte) : s.OperandReadsAlike q b := by
  cases hs : s.dstate with
  | operandByte => exact absurd hs hd
  | addressingByte => exact addressing_readsAlike h hs b
  | immediateByte =>
    obtain ⟨hdec, -⟩ := h.of_immediateByte hs
    obtain ⟨-, -, ⟨hclass, hter⟩ | ⟨hclass, hter⟩, -⟩ := hdec.of_immediateByte hs
    · exact movImmediate_readsAlike h hs hclass hter b
    · exact imulImmediate_readsAlike h hs hclass hter b

/-! ### The executor, and one step -/

/-- R43: the executor takes nothing from the record. -/
theorem exec_record {i : Instr} {s t : State} (h : exec i s = .next t) (q : Pending) :
    ∃ q', exec i { s with pending := q } = .next { t with pending := q' } := by
  obtain ⟨t', h'⟩ := exec_next i { s with pending := q }
  obtain ⟨hregs, hdraws⟩ := exec_congr i (s1 := { s with pending := q }) (s2 := s) rfl rfl rfl h' h
  refine ⟨t'.pending, h'.trans ?_⟩
  rw [exec_frame h', exec_frame h, hregs, hdraws]

/-- The step of an operand byte: the byte counted and taken, then R119's and R123's test. -/
theorem step_operandByte {s : State} {b : Byte} {rest : List Event} (hrun : s.status = .running)
    (hin : s.inputs = .byte b :: rest) (hd : s.dstate ≠ .operandByte)
    (hform : s.dstate = .addressingByte → isRegisterForm b = true) :
    step s = (({ s with inputs := rest } : State).operandTaken b).completeIfLast := by
  cases hs : s.dstate with
  | operandByte => exact absurd hs hd
  | addressingByte =>
    rw [step_registerForm hrun hs hin (hform hs), ← hs]
    exact congrArg _ (operandTaken_of_addressing (s := { s with inputs := rest }) hs b).symm
  | immediateByte =>
    rw [step_immediateByte hrun hs hin, ← hs]
    exact congrArg _ (operandTaken_of_immediate (s := { s with inputs := rest }) hs b).symm

/-- The step of an `End` while the session runs. -/
theorem step_endRunning {s : State} {rest : List Event} (hrun : s.status = .running)
    (hin : s.inputs = .endOfStream :: rest) :
    step s = .next ({ s with inputs := rest } : State).endRunning := by
  rw [step_end hin, State.endStream, hrun]

/-- The end of the stream neither reads nor writes the record. -/
theorem endRunning_record (s : State) (q : Pending) :
    ({ s with pending := q } : State).endRunning = { s.endRunning with pending := q } := by
  by_cases hd : s.dstate = .operandByte
  · rw [endRunning_boundary (by exact hd), endRunning_boundary hd]
  · rw [endRunning_inside (by exact hd), endRunning_inside hd]
    rfl

theorem endRunning_status_ne_running (s : State) : s.endRunning.status ≠ .running := by
  by_cases hd : s.dstate = .operandByte
  · simp [endRunning_boundary hd]
  · simp [endRunning_inside hd]

/-- The simulation's step: two machines whose records read alike do the same, and their records
read alike again. -/
theorem step_readsAlike {s t : State} {q : Pending} (h : s.status = .running → s.ReadsAlike q)
    (hstep : step s = .next t) :
    ∃ q', step { s with pending := q } = .next { t with pending := q' } ∧
      (t.status = .running → t.ReadsAlike q') := by
  cases step_cases hstep with
  | idle hin ht =>
    subst ht
    exact ⟨q, step_idle hin, h⟩
  | ignored e rest hin hs he ht =>
    subst ht
    exact ⟨q, step_terminal (by exact hs) he hin, fun hrun => absurd hrun hs⟩
  | reset rest hin ht =>
    subst ht
    exact ⟨Pending.reset, step_reset hin, fun _ => .of_operandByte rfl _⟩
  | ended rest hin hs ht =>
    subst ht
    exact ⟨q, (step_endRunning (s := { s with pending := q }) hs hin).trans
      (congrArg _ (endRunning_record { s with inputs := rest } q)),
      fun hrun => absurd hrun (endRunning_status_ne_running _)⟩
  | opcode b rest hin hs hd ht =>
    subst ht
    obtain ⟨q', htake, hreads⟩ :=
      takeOpcode_readsAlike { s with inputs := rest, pos := s.pos + 1 } q s.pos b
    exact ⟨q', (step_opcodeByte (s := { s with pending := q }) ⟨hs, hd⟩ hin).trans
      (congrArg _ htake), hreads⟩
  | memoryForm b rest hin hs hd hb ht =>
    subst ht
    exact ⟨q, step_memoryForm (s := { s with pending := q }) hs hd hin hb,
      fun hrun => absurd hrun (by simp)⟩
  | goesOn b rest u hin hs hu hx ht =>
    obtain ⟨hd, hform, rfl⟩ := eq_operandTaken_of_counted hu
    subst ht
    obtain ⟨q', htake, hcount, hreads, -⟩ :=
      operand_readsAlike (s := { s with inputs := rest }) (h hs) hd b
    refine ⟨q', ?_, fun _ => hreads hx⟩
    rw [step_operandByte (s := { s with pending := q }) hs hin hd hform]
    exact (congrArg State.completeIfLast htake).trans
      (completeIfLast_of_more (fun hzero => hx (hcount.symm.trans hzero)))
  | completes b rest u v i hin hs hu hx hi hv ht =>
    obtain ⟨hd, hform, rfl⟩ := eq_operandTaken_of_counted hu
    subst ht
    obtain ⟨q', htake, hcount, -, hdesc⟩ :=
      operand_readsAlike (s := { s with inputs := rest }) (h hs) hd b
    obtain ⟨q'', hexec⟩ := exec_record hv q'
    refine ⟨{ q'' with opcodeClass := .none }, ?_, fun _ => .of_operandByte rfl _⟩
    rw [step_operandByte (s := { s with pending := q }) hs hin hd hform]
    refine (congrArg State.completeIfLast htake).trans ?_
    rw [completeIfLast_of_zero (hcount.trans hx), complete_of_descriptor ((hdesc hx).trans hi),
      hexec]
    rfl

/-- The simulation, over any run. -/
theorem runSteps_readsAlike {n : Nat} {s t : State} {q : Pending}
    (h : s.status = .running → s.ReadsAlike q) (hrun : runSteps n s = .next t) :
    ∃ q', runSteps n { s with pending := q } = .next { t with pending := q' } := by
  induction n generalizing s q with
  | zero => cases hrun; exact ⟨q, rfl⟩
  | succ n ih =>
    cases hstep : step s with
    | next u =>
      rw [runSteps_succ n hstep] at hrun
      obtain ⟨q', hstep', hreads⟩ := step_readsAlike h hstep
      rw [runSteps_succ n hstep']
      exact ih hreads hrun
    | fault r => simp [runSteps, hstep] at hrun
    | refused r => simp [runSteps, hstep] at hrun

/-- Settles O52: at a boundary any two records read alike, and `runSteps_readsAlike` carries that
through the run. -/
theorem leftoverRecordIsUnobservable : Obligations.LeftoverRecordIsUnobservable := by
  rintro s t record n ⟨-, hd⟩ hrun
  obtain ⟨q', hrun'⟩ := runSteps_readsAlike (fun _ => .of_operandByte hd record) hrun
  exact ⟨_, hrun', rfl⟩

end Sys2Proof.Machine
end
